-- ==== Sys2Proof/Word.lean ====
section
/-! DEFINITION. The word types of HEBI and the plainest 64-bit arithmetic (00_scope.md R5, R7). -/

namespace Sys2Proof

/-- One byte, 0 to 255 (R7). -/
abbrev Byte := BitVec 8
/-- The width of `hashCount` and of `PROBES` (R5, R15). -/
abbrev Word16 := BitVec 16
/-- The width of seeds, lengths, addresses and of every value `RDREG` returns (R5, R18). -/
abbrev Word32 := BitVec 32
/-- The width of the hash datapath (R5). -/
abbrev Word64 := BitVec 64
/-- Sixteen raw bytes `D[0..15]`, first byte first (R5, R12). -/
abbrev Digest := Vector Byte 16

/-- `add64`: the sum modulo `2^64`, no overflow recorded (R7, R57). -/
def add64 (a b : Word64) : Word64 := a + b
/-- `mul64`: the product modulo `2^64` (R7, R57). -/
def mul64 (a b : Word64) : Word64 := a * b
/-- `xor64`: bitwise exclusive or (R7). -/
def xor64 (a b : Word64) : Word64 := a ^^^ b

end Sys2Proof
end

