-- ==== Sys2Proof/Machine/Bytes.lean ====
section
/-! DEFINITION. Byte orders, widening, shifts and rotations (00_scope.md R7, 20_memory.md R24). -/

namespace Sys2Proof.Machine

/-- `beN(b) = sum over j of b[j] * 2^(8*(n-1-j))`: a byte sequence read big-endian (R7). -/
def beNat (b : List Byte) : Nat := b.foldl (fun acc x => acc * 256 + x.toNat) 0

/-- `sum over j of b[j] * 2^(8*j)`: a byte sequence read little-endian (R7). -/
def leNat : List Byte → Nat
  | [] => 0
  | x :: b => x.toNat + 256 * leNat b

/-- `be16` (R7). -/
def be16 (b : List Byte) : Word16 := BitVec.ofNat 16 (beNat b)
/-- `be32` (R7). -/
def be32 (b : List Byte) : Word32 := BitVec.ofNat 32 (beNat b)
/-- `le64` (R7). -/
def le64 (b : List Byte) : Word64 := BitVec.ofNat 64 (leNat b)

/-- `bytes_be16`, the inverse of `be16` (R7). -/
def bytesBe16 (v : Word16) : List Byte := [v.extractLsb' 8 8, v.extractLsb' 0 8]
/-- `bytes_be32`, the inverse of `be32` (R7). -/
def bytesBe32 (v : Word32) : List Byte :=
  [v.extractLsb' 24 8, v.extractLsb' 16 8, v.extractLsb' 8 8, v.extractLsb' 0 8]
/-- `bytes_le64`, the inverse of `le64` (R7). -/
def bytesLe64 (v : Word64) : List Byte :=
  [v.extractLsb' 0 8, v.extractLsb' 8 8, v.extractLsb' 16 8, v.extractLsb' 24 8,
   v.extractLsb' 32 8, v.extractLsb' 40 8, v.extractLsb' 48 8, v.extractLsb' 56 8]

/-- Sixteen bytes from a list: its first sixteen, missing ones read as 0x00. -/
def digestOfList (b : List Byte) : Digest :=
  ⟨((b ++ List.replicate 16 0).take 16).toArray, by simp⟩

/-- `shr64(a, r) = floor(a / 2^r)`: logical, zero bits enter at the top (R7). -/
def shr64 (a : Word64) (r : Nat) : Word64 := a >>> r
/-- `shl64(a, r) = (a * 2^r) mod 2^64` (R7). -/
def shl64 (a : Word64) (r : Nat) : Word64 := a <<< r
/-- `rotl64(a, r) = shl64(a, r) or shr64(a, 64 - r)` for `1 <= r <= 63` (R7). -/
def rotl64 (a : Word64) (r : Nat) : Word64 := shl64 a r ||| shr64 a (64 - r)

end Sys2Proof.Machine
end

