-- ==== Sys2Proof/Syntax.lean ====
section
/-! DEFINITION. The commands of HEBI command set version 1 (30_encoding.md R37): one constructor per row of
spec/opcode_table.json, with the operands of its packet format (R35, R36). `opcode` and `len` are no operands:
the first is the constructor, the second the length of `msg`. -/

namespace Sys2Proof

/-- A command with its operands. -/
inductive Instr where
  /-- `HASH seed, msg`: format S, opcode 0x01 (R58). -/
  | hash (seed : Word32) (msg : List Byte)
  /-- `INDEX d`: format D, opcode 0x02 (R64). -/
  | index (d : Digest)
  /-- `INSERT msg`: format M, opcode 0x03 (R70). -/
  | insert (msg : List Byte)
  /-- `CONTAINS msg`: format M, opcode 0x04 (R71). -/
  | contains (msg : List Byte)
  /-- `CONFIG hashCount, bitCount`: format C, opcode 0x05 (R80). -/
  | config (hashCount : Word16) (bitCount : Word32)
  /-- `RDARR addr`: format A, opcode 0x06 (R81). -/
  | rdarr (addr : Word32)
  /-- `WRARR addr, data`: format W, opcode 0x07 (R82). -/
  | wrarr (addr : Word32) (data : Byte)
  /-- `RDREG regno`: format R, opcode 0x08 (R83). Every 8-bit number is an operand; the reserved ones raise `E_REG`. -/
  | rdreg (regno : Byte)
  deriving DecidableEq, Repr

/-- The registers `RDREG` can name (10_state.md R18). -/
inductive Reg where
  | status | bitcount | hashcount | nbytes | bitindex | byteindex | mask
  | digest0 | digest1 | digest2 | digest3
  deriving DecidableEq, Repr

end Sys2Proof
end

