-- ==== Sys2Proof/WellFormed.lean ====
section
/-! DEFINITION. Which commands have a packet: a message has at most `2^32 - 1` bytes (R6, R23, D6). Every value of
every other operand is legal (R38). -/

namespace Sys2Proof

/-- `0 <= len <= 2^32 - 1` (R23, R36): the `len` field is 32 bits. -/
abbrev MessageFits (msg : List Byte) : Prop := msg.length < 2 ^ 32

/-- A command that some packet carries. -/
def Instr.WellFormed : Instr → Prop
  | .hash _ msg => MessageFits msg
  | .index _ => True
  | .insert msg => MessageFits msg
  | .contains msg => MessageFits msg
  | .config _ _ => True
  | .rdarr _ => True
  | .wrarr _ _ => True
  | .rdreg _ => True

end Sys2Proof
end

