-- ==== Sys2Proof/Decode.lean ====
section
/-! DEFINITION. The packet decoder (30_encoding.md R33 to R38) and, after it, the encoder from the same tables. -/

namespace Sys2Proof

open Sys2Proof.Machine

/-- The eight opcodes (R37). -/
inductive Opcode where
  | hash | index | insert | contains | config | rdarr | wrarr | rdreg
  deriving DecidableEq, Repr

/-- What the first bytes of a packet are. -/
inductive Decoded where
  /-- The packet's last byte is not among them: rejected as incomplete (R34, R113). -/
  | incomplete
  /-- The first byte is no opcode: rejected as illegal, a packet of one byte (R38, R101); `rest` follows it. -/
  | illegal (rest : List Byte)
  /-- A whole packet, and the bytes after it. -/
  | packet (i : Instr) (rest : List Byte)
  deriving DecidableEq, Repr

/-- "The opcode is the whole first byte" (R37); `none` for `0x00` and `0x09 .. 0xFF` (R38). -/
def opcodeOf (b : Byte) : Option Opcode :=
  if b = 0x01#8 then some .hash
  else if b = 0x02#8 then some .index
  else if b = 0x03#8 then some .insert
  else if b = 0x04#8 then some .contains
  else if b = 0x05#8 then some .config
  else if b = 0x06#8 then some .rdarr
  else if b = 0x07#8 then some .wrarr
  else if b = 0x08#8 then some .rdreg
  else none

/-- Bytes `first` to `first + n - 1` of a packet `p`: the `p[a..b]` of R36. -/
def field (p : List Byte) (first n : Nat) : List Byte := (p.drop first).take n

/-- Bytes before the payload: the whole packet for the five formats of constant length, up to and with `len` for
formats S and M (R33, R35). -/
def headerLength : Opcode → Nat
  | .hash => 9
  | .index => 17
  | .insert => 5
  | .contains => 5
  | .config => 7
  | .rdarr => 5
  | .wrarr => 6
  | .rdreg => 2

/-- The payload's length, from the header's `len` field; 0 for the formats that have none (R33, R36). -/
def payloadLength (op : Opcode) (p : List Byte) : Nat :=
  match op with
  | .hash => beNat (field p 5 4)
  | .insert => beNat (field p 1 4)
  | .contains => beNat (field p 1 4)
  | .index => 0
  | .config => 0
  | .rdarr => 0
  | .wrarr => 0
  | .rdreg => 0

/-- How many first bytes fix the packet's length: the opcode alone for five formats, up to and with `len` for formats S
and M (R33). -/
def lengthKnownAfter : Opcode → Nat
  | .hash => 9
  | .index => 1
  | .insert => 5
  | .contains => 5
  | .config => 1
  | .rdarr => 1
  | .wrarr => 1
  | .rdreg => 1

/-- The length of the packet that begins with these bytes, `none` while they do not fix it (R33). -/
def packetLength (p : List Byte) : Option Nat :=
  match p with
  | [] => none
  | b :: _ =>
    match opcodeOf b with
    | none => some 1
    | some op => if p.length < lengthKnownAfter op then none else some (headerLength op + payloadLength op p)

/-- Operand assembly (R36) on one whole packet `p` whose opcode is `op`. -/
def operands (op : Opcode) (p : List Byte) : Instr :=
  match op with
  | .hash => .hash (be32 (field p 1 4)) (p.drop 9)
  | .index => .index (digestOfList (field p 1 16))
  | .insert => .insert (p.drop 5)
  | .contains => .contains (p.drop 5)
  | .config => .config (be16 (field p 1 2)) (be32 (field p 3 4))
  | .rdarr => .rdarr (be32 (field p 1 4))
  | .wrarr => .wrarr (be32 (field p 1 4)) (p.getD 5 0)
  | .rdreg => .rdreg (p.getD 1 0)

/-- The decoder, total on any bytes: the first packet of `p` and what follows it, or why there is none. -/
def decode (p : List Byte) : Decoded :=
  match p with
  | [] => .incomplete
  | b :: rest =>
    match opcodeOf b with
    | none => .illegal rest
    | some op =>
      match packetLength p with
      | none => .incomplete
      | some n => if p.length < n then .incomplete else .packet (operands op (p.take n)) (p.drop n)

/-- The encoder (R35, R37): the packet of a command. `len` is the message's length in 32 bits, so it is the packet
of a well-formed command only. -/
def encode : Instr → List Byte
  | .hash seed msg => 0x01#8 :: (bytesBe32 seed ++ bytesBe32 (BitVec.ofNat 32 msg.length) ++ msg)
  | .index d => 0x02#8 :: d.toList
  | .insert msg => 0x03#8 :: (bytesBe32 (BitVec.ofNat 32 msg.length) ++ msg)
  | .contains msg => 0x04#8 :: (bytesBe32 (BitVec.ofNat 32 msg.length) ++ msg)
  | .config hashCount bitCount => 0x05#8 :: (bytesBe16 hashCount ++ bytesBe32 bitCount)
  | .rdarr addr => 0x06#8 :: bytesBe32 addr
  | .wrarr addr data => 0x07#8 :: (bytesBe32 addr ++ [data])
  | .rdreg regno => [0x08#8, regno]

/-- Byte `k` of a number whose bits are numbered as spec/opcode_table.json numbers them. -/
def tableByte (w k : Nat) : Byte := BitVec.ofNat 8 (w / 256 ^ k)

/-- The given bytes of a packet and zero bytes past the longest header. -/
def tableBytes (nbits w : Nat) : List Byte := (List.range (nbits / 8)).map (tableByte w) ++ List.replicate 17 0#8

/-- The first `n` bytes of `p`, missing ones zero. -/
def padTo (n : Nat) (p : List Byte) : List Byte := (p ++ List.replicate (n - p.length) 0#8).take n

/-- The bytes of a packet given as `nbits` bits `w` of the table's numbering, every later bit 0, cut at the packet's
end. -/
def tablePacket (nbits w : Nat) : List Byte :=
  padTo ((packetLength (tableBytes nbits w)).getD 1) (tableBytes nbits w)

/-- What the decoder reads from an instruction whose bits are `w` in the table's numbering. -/
def decodeTableWord (nbits w : Nat) : Option Instr :=
  match decode (tablePacket nbits w) with
  | .incomplete => none
  | .illegal _ => none
  | .packet i _ => some i

end Sys2Proof
end

