-- ==== Sys2Proof/Config.lean ====
section
/-! DEFINITION. What an implementation fixes (the open parameters of R6) and the free values the spec leaves open. -/

namespace Sys2Proof

/-- How a 32-bit seed with bit 31 set is widened to 64 bits: the open parameter `SEED_EXT` (R6, R51). -/
inductive SeedExt where
  | zero
  | sign
  deriving DecidableEq, Repr

/-- The named parameters of one block, fixed for its life (R6, R21). The spec leaves both OPEN
(decisions D7, D15); the model takes them as data, see notes/assumptions/1.md. -/
structure Params where
  /-- `ARRAY_BYTES_MAX`, the capacity of `BITS` in bytes. -/
  arrayBytesMax : Nat
  /-- `SEED_EXT`. -/
  seedExt : SeedExt
  deriving DecidableEq, Repr

/-- `1 <= ARRAY_BYTES_MAX <= 2^28` (R6). -/
abbrev Params.WellFormed (p : Params) : Prop := 1 ≤ p.arrayBytesMax ∧ p.arrayBytesMax ≤ 2 ^ 28

/-- DESIGN CHOICE, unsafe (log 1): the parameters of the block `State.reset` describes. `2^28` is the value
R6 gives for "a model that wants the whole range of the document", `zero` the default D7 suggests. -/
def Config.defaultParams : Params := { arrayBytesMax := 2 ^ 28, seedExt := .zero }

/-- FREE VALUE (log 4): the n-th 64-bit value nobody fixes. `H1`, `H2`, `K1`, `K2`, `LEN` are "unspecified and
unobservable" between commands (R11), so each takes one of these after an evaluation. No body: nothing can be
proved of a value of it. -/
opaque Config.freeWord : Nat → Word64

end Sys2Proof
end

