-- ==== Sys2Proof/Machine/State.lean ====
section
/-! DEFINITION. The state of one HEBI block (10_state.md R10), plain data, and its reset values (R22). -/

namespace Sys2Proof.Machine

/-- `BITS`: (address, byte) pairs, addresses strictly rising, no entry equal to what an unlisted address reads as. -/
abbrev Memory := List Host.Cell

/-- DESIGN CHOICE, unsafe (log 2): what a byte of `BITS` nothing has written reads as. No command can read one:
every access is below `NBYTES`, which `CONFIG` has zeroed (R19, R22). -/
def unlistedByte : Byte := 0#8

/-- The canonical form of `BITS`. -/
abbrev Memory.wf (m : Memory) : Prop :=
  m.Pairwise (fun c d => c.1 < d.1) ∧ ∀ c ∈ m, c.2 ≠ unlistedByte

/-- The hash datapath registers `H1`, `H2`, `K1`, `K2`, `LEN` (R11). -/
structure HashRegs where
  h1 : Word64
  h2 : Word64
  k1 : Word64
  k2 : Word64
  len : Word64
  deriving DecidableEq, Repr

/-- What the host does at the port (R4, R110, R118), in the order it does it. -/
inductive HostEvent where
  /-- The next byte of the command stream (R33). -/
  | byte (b : Byte)
  /-- The reset input, asserted and released (R110). -/
  | reset
  deriving DecidableEq, Repr

/-- The status codes (R100). -/
inductive Status where
  | ok | eIllegal | eNocfg | eCfg | eAddr | eReg
  deriving DecidableEq, Repr

/-- Why a step stops. No command raises one: a failing command is a NEXT state (R100). -/
inductive Fault where
  /-- Raised by `step` when the host has sent nothing more, `PKT` is empty and the block is not halted: the block
  waits for bytes (R109). Safe: the hardware makes no step either. -/
  | idle
  /-- Raised by `step` when the host has sent nothing more and a packet is in progress: a stuck port, "not a fault"
  of the block's own (R113). Safe: the hardware makes no step either. -/
  | incompletePacket
  /-- Raised by `step` when the host has sent nothing more and `HALT = 1`: "an agent with no enabled step" (R103).
  Safe: the hardware makes no step either. -/
  | halted
  deriving DecidableEq, Repr

/-- Why a command is refused. -/
inductive Refusal where
  /-- Raised by `exec`'s arm of an instruction without a meaning, of which this model has none. Safe. -/
  | notModelled (mnemonic : String)
  deriving DecidableEq, Repr

/-- The whole state of one block (R10), and after it four fields of the model's own. -/
structure State where
  /-- `BITCOUNT` (R14). -/
  bitCount : Word32
  /-- `HASHCOUNT` (R14). -/
  hashCount : Word16
  /-- `BITS` (R19). -/
  bits : Memory
  /-- `DIGEST` (R12). -/
  digest : Digest
  /-- `BITINDEX` (R13). -/
  bitIndex : Word32
  /-- `BYTEINDEX` (R13). -/
  byteIndex : Word32
  /-- `MASK` (R13). -/
  mask : Byte
  /-- `RESULT` (R15). -/
  result : Bool
  /-- `PROBES` (R15). -/
  probes : Word16
  /-- `ERRFLAGS` (R16). -/
  errFlags : Byte
  /-- `HALT` (R20). -/
  halt : Bool
  /-- `PKT` (R20). -/
  pkt : List Byte
  /-- `H1`, `H2`, `K1`, `K2`, `LEN` (R11). -/
  hashRegs : HashRegs
  /-- MODEL's own (log 1): `ARRAY_BYTES_MAX` and `SEED_EXT`, which no step changes (R6, R21). -/
  params : Params
  /-- MODEL's own (log 4): the next free value to draw. -/
  freeIndex : Nat
  /-- MODEL's own (log 5): what the host has done and the block has not yet taken. -/
  input : List HostEvent
  /-- MODEL's own (log 5): every response byte sent, first first: "an unbounded output list" (R115). -/
  output : List Byte
  deriving DecidableEq, Repr

/-- The reset state of a block with parameters `p`: the table of R22. The hash registers, unspecified there, hold 0
and `BITS`, unspecified too, lists nothing: DESIGN CHOICE, unsafe (log 2, log 3). -/
def State.resetWith (p : Params) : State where
  bitCount := 0
  hashCount := 0
  bits := []
  digest := Vector.replicate 16 0
  bitIndex := 0
  byteIndex := 0
  mask := 0
  result := false
  probes := 0
  errFlags := 0
  halt := false
  pkt := []
  hashRegs := { h1 := 0, h2 := 0, k1 := 0, k2 := 0, len := 0 }
  params := p
  freeIndex := 0
  input := []
  output := []

/-- The machine right after reset (R22, R110), for the parameters log 1 names. -/
def State.reset : State := State.resetWith Config.defaultParams

end Sys2Proof.Machine
end

