-- ==== Sys2Proof/Machine/Flags.lean ====
section
/-! DEFINITION. Every flag computation: the status codes and their sticky flags (60_exceptions.md R100, 10_state.md
R16), `CFGD` and the `STATUS` word (R18). -/

namespace Sys2Proof.Machine

/-- The status byte of a code (R100). -/
def statusCode : Status → Byte
  | .ok => 0x00
  | .eIllegal => 0x01
  | .eNocfg => 0x02
  | .eCfg => 0x03
  | .eAddr => 0x04
  | .eReg => 0x05

/-- The `ERRFLAGS` bit of a code, `1 << (code - 1)` (R16, R100); success sets none. -/
def errFlag : Status → Byte
  | .ok => 0x00
  | .eIllegal => 0x01
  | .eNocfg => 0x02
  | .eCfg => 0x04
  | .eAddr => 0x08
  | .eReg => 0x10

/-- "if code = 0x01: HALT <- 1" (R100, R102). -/
def haltsBlock : Status → Bool
  | .ok => false
  | .eIllegal => true
  | .eNocfg => false
  | .eCfg => false
  | .eAddr => false
  | .eReg => false

/-- `CFGD` = 1 if `BITCOUNT != 0` else 0, derived and not stored (R18). -/
def cfgd (s : State) : Bool := s.bitCount != 0

/-- The `STATUS` word: `PROBES`, `ERRFLAGS`, six zero bits, `CFGD`, `RESULT`, from bit 31 down (R18). -/
def statusWord (s : State) : Word32 :=
  s.probes ++ s.errFlags ++ 0#6 ++ BitVec.ofBool (cfgd s) ++ BitVec.ofBool s.result

end Sys2Proof.Machine
end

