-- ==== Sys2Proof/Machine/Operands.lean ====
section
/-! DEFINITION. How an operand names a place: bit addressing (41_index.md R60 to R63), the array's extent
(10_state.md R14, 20_memory.md R27) and register numbers (10_state.md R18). -/

namespace Sys2Proof.Machine

/-- `ceil(bitCount / 8) = (bitCount + 7) div 8` (R7, R14). -/
def arrayBytes (bitCount : Word32) : Nat := (bitCount.toNat + 7) / 8

/-- `NBYTES`, derived and not stored; 0 when `BITCOUNT = 0` (R14). -/
def nbytes (s : State) : Nat := arrayBytes s.bitCount

/-- What one evaluation of `BitAddress` gives (R60). -/
structure BitAddr where
  bitIndex : Word32
  byteIndex : Word32
  mask : Byte
  deriving DecidableEq, Repr

/-- `mask = 0x80 >> (bitIndex mod 8)` (R60, R62). -/
def maskOf (bitIndex : Nat) : Byte := 0x80#8 >>> (bitIndex % 8)

/-- `BitAddress(d, bitCount)` (R60), with `V = be128(d)` (R61) reduced exactly. -/
def bitAddress (d : Digest) (bitCount : Word32) : BitAddr :=
  let i := beNat d.toList % bitCount.toNat
  { bitIndex := BitVec.ofNat 32 i, byteIndex := BitVec.ofNat 32 (i / 8), mask := maskOf i }

/-- One digit of the equivalent reduction: `r <- (r * 256 + d[j]) mod bitCount` (R63). -/
def hornerStep (bitCount : Nat) (r : Nat) (x : Byte) : Nat := (r * 256 + x.toNat) % bitCount

/-- The equivalent reduction without 128-bit arithmetic (R63). -/
def hornerIndex (d : Digest) (bitCount : Nat) : Nat := d.toList.foldl (hornerStep bitCount) 0

/-- Filter bit `i` is bit `7 - (i mod 8)` of `BITS[i div 8]` (R19, R62): the bit that `maskOf i` selects. -/
def selectsBit (byte mask : Byte) : Bool := (byte &&& mask) != 0#8

/-- The register a number names; `none` for the reserved `0x07` and `0x0C .. 0xFF` (R18). -/
def regOf (regno : Byte) : Option Reg :=
  if regno = 0x00#8 then some .status
  else if regno = 0x01#8 then some .bitcount
  else if regno = 0x02#8 then some .hashcount
  else if regno = 0x03#8 then some .nbytes
  else if regno = 0x04#8 then some .bitindex
  else if regno = 0x05#8 then some .byteindex
  else if regno = 0x06#8 then some .mask
  else if regno = 0x08#8 then some .digest0
  else if regno = 0x09#8 then some .digest1
  else if regno = 0x0A#8 then some .digest2
  else if regno = 0x0B#8 then some .digest3
  else none

/-- `DIGEST0..3`: `be32` of four digest bytes from `D[first]` (R18). -/
def digestWord (d : Digest) (first : Nat) : Word32 := be32 ((d.toList.drop first).take 4)

/-- `x[regno]`: the 32-bit value of a register (R18). -/
def regValue (r : Reg) (s : State) : Word32 :=
  match r with
  | .status => statusWord s
  | .bitcount => s.bitCount
  | .hashcount => s.hashCount.setWidth 32
  | .nbytes => BitVec.ofNat 32 (nbytes s)
  | .bitindex => s.bitIndex
  | .byteindex => s.byteIndex
  | .mask => s.mask.setWidth 32
  | .digest0 => digestWord s.digest 0
  | .digest1 => digestWord s.digest 4
  | .digest2 => digestWord s.digest 8
  | .digest3 => digestWord s.digest 12

end Sys2Proof.Machine
end

