-- ==== Sys2Proof/Machine/Ops.lean ====
section
/-! DEFINITION. The named operations over memory and registers: one byte of `BITS` (20_memory.md R26, R27), the
result registers (10_state.md R12, R13), responses (R7, R39), failing (60_exceptions.md R100) and the only way back,
reset (70_reset_and_hazards.md R110). -/

namespace Sys2Proof.Machine

/-- The byte at an address. -/
def Memory.read : Memory → Nat → Byte
  | [], _ => unlistedByte
  | c :: m, a => if c.1 = a then c.2 else Memory.read m a

/-- A cell put in front, unless it says what an unlisted address reads as. -/
def Memory.consCell (a : Nat) (v : Byte) (m : Memory) : Memory :=
  if v = unlistedByte then m else (a, v) :: m

/-- One byte written, the canonical form kept. -/
def Memory.write : Memory → Nat → Byte → Memory
  | [], a, v => Memory.consCell a v []
  | c :: m, a, v =>
    if a < c.1 then Memory.consCell a v (c :: m)
    else if c.1 = a then Memory.consCell a v m
    else c :: Memory.write m a v

/-- `for a from 0 to n - 1: MemWrite(a, 1, 0x00)` (R80) at once: `Laws/Memory.lean` proves it equal to that loop. -/
def Memory.clearBelow (m : Memory) (n : Nat) : Memory := m.filter (fun c => n ≤ c.1)

/-- `MemRead(addr, 1)` (R7, R26): no side effect. -/
def memRead (a : Nat) (s : State) : Byte := s.bits.read a

/-- `MemWrite(addr, 1, v)` (R7, R26). -/
def memWrite (a : Nat) (v : Byte) (s : State) : State := { s with bits := s.bits.write a v }

/-- The first `n` bytes of `BITS` set to 0x00 (R80). -/
def clearArray (n : Nat) (s : State) : State := { s with bits := s.bits.clearBelow n }

/-- `DIGEST <- d` (R12). -/
def writeDigest (d : Digest) (s : State) : State := { s with digest := d }

/-- `BITINDEX`, `BYTEINDEX`, `MASK`, written together (R13). -/
def writeIndex (b : BitAddr) (s : State) : State :=
  { s with bitIndex := b.bitIndex, byteIndex := b.byteIndex, mask := b.mask }

/-- `RESULT` (R15). -/
def writeResult (r : Bool) (s : State) : State := { s with result := r }

/-- `PROBES` (R15). -/
def writeProbes (n : Word16) (s : State) : State := { s with probes := n }

/-- `HASHCOUNT` and `BITCOUNT`, written together by `CONFIG` alone (R14, R80). -/
def writeConfig (hashCount : Word16) (bitCount : Word32) (s : State) : State :=
  { s with hashCount := hashCount, bitCount := bitCount }

/-- Free values from the n-th on for the five hash registers (log 4). -/
def freeHashRegs (n : Nat) : HashRegs :=
  { h1 := Config.freeWord n, h2 := Config.freeWord (n + 1), k1 := Config.freeWord (n + 2),
    k2 := Config.freeWord (n + 3), len := Config.freeWord (n + 4) }

/-- The hash registers after an evaluation: "unspecified and unobservable" (R11), so free values (log 4). -/
def releaseHashRegs (s : State) : State :=
  { s with hashRegs := freeHashRegs s.freeIndex, freeIndex := s.freeIndex + 5 }

/-- `respond(b[0..n-1])` (R7). -/
def respond (b : List Byte) (s : State) : State := { s with output := s.output ++ b }

/-- A successful command's response: the status byte `OK` and the data (R39). -/
def respondOk (data : List Byte) (s : State) : State := respond (statusCode .ok :: data) s

/-- `raise E_x` (R100): the sticky flag, `HALT` for `E_ILLEGAL`, the status byte, "and nothing else". -/
def raiseStatus (e : Status) (s : State) : State :=
  respond [statusCode e] { s with errFlags := s.errFlags ||| errFlag e, halt := s.halt || haltsBlock e }

/-- Reset (R110), the only exit from the halted state: the state of R22 for the same block. `BITS` is not touched
(D16); the host's further actions, the responses it has had and the count of free values drawn go on (log 3, log 6). -/
def resetBlock (s : State) : State :=
  { State.resetWith s.params with
    bits := s.bits, freeIndex := s.freeIndex, input := s.input, output := s.output }

end Sys2Proof.Machine
end

