-- ==== Sys2Proof/Machine/ConfigArray.lean ====
section
/-! DEFINITION. `CONFIG`, `RDARR`, `WRARR`, `RDREG` (43_config_array.md R80 to R83). -/

namespace Sys2Proof.Machine

/-- What `CONFIG` refuses (R80): a `bitCount` that is no positive signed 32-bit value, or an array larger than
`ARRAY_BYTES_MAX`. -/
def configRefused (bitCount : Word32) (s : State) : Bool :=
  bitCount.msb || bitCount == 0 || decide (arrayBytes bitCount > s.params.arrayBytesMax)

/-- `CONFIG hashCount, bitCount` (R80). -/
def execConfig (hashCount : Word16) (bitCount : Word32) (s : State) : Host.Outcome State Fault Refusal :=
  if configRefused bitCount s then .next (raiseStatus .eCfg s)
  else .next (respondOk [] (clearArray (arrayBytes bitCount) (writeConfig hashCount bitCount s)))

/-- `RDARR addr` (R81): `E_NOCFG`, then `E_ADDR`, then the byte as stored. -/
def execRdarr (addr : Word32) (s : State) : Host.Outcome State Fault Refusal :=
  if s.bitCount = 0 then .next (raiseStatus .eNocfg s)
  else if addr.toNat ≥ nbytes s then .next (raiseStatus .eAddr s)
  else .next (respondOk [memRead addr.toNat s] s)

/-- `WRARR addr, data` (R82): `E_NOCFG`, then `E_ADDR`, then the whole byte replaced. -/
def execWrarr (addr : Word32) (data : Byte) (s : State) : Host.Outcome State Fault Refusal :=
  if s.bitCount = 0 then .next (raiseStatus .eNocfg s)
  else if addr.toNat ≥ nbytes s then .next (raiseStatus .eAddr s)
  else .next (respondOk [] (memWrite addr.toNat data s))

/-- `RDREG regno` (R83): the value before this command; reading clears nothing. -/
def execRdreg (regno : Byte) (s : State) : Host.Outcome State Fault Refusal :=
  match regOf regno with
  | none => .next (raiseStatus .eReg s)
  | some r => .next (respondOk (bytesBe32 (regValue r s)) s)

end Sys2Proof.Machine
end

