-- ==== Sys2Proof/Machine/Hash.lean ====
section
/-! DEFINITION. The hash engine (40_hash.md): `Murmur128` phase by phase on the datapath registers (R50 to R57),
and the `HASH` command (R58). The inner detail the source leaves to "the reference algorithm" is the spec's, from
general knowledge (log 12). -/

namespace Sys2Proof.Machine

/-- `C1` (R57). -/
def c1 : Word64 := 0x87c37b91114253d5#64
/-- `C2` (R57). -/
def c2 : Word64 := 0x4cf5ad432745937f#64

/-- The seed widened to 64 bits (R51): the two extensions agree unless bit 31 is set. -/
def extendSeed (ext : SeedExt) (seed : Word32) : Word64 :=
  match ext with
  | .zero => seed.setWidth 64
  | .sign => seed.signExtend 64

/-- Initialisation (R51). `LEN` is the whole message's length (R54, D9). -/
def initRegs (ext : SeedExt) (seed : Word32) (len : Nat) (r : HashRegs) : HashRegs :=
  { r with h1 := extendSeed ext seed, h2 := extendSeed ext seed, len := BitVec.ofNat 64 len }

/-- `K1`'s mixing: times `C1`, rotate by 31, times `C2` (R52, R53). -/
def mixK1 (k : Word64) : Word64 := mul64 (rotl64 (mul64 k c1) 31) c2

/-- `K2`'s mixing: times `C2`, rotate by 33, times `C1` (R52, R53). -/
def mixK2 (k : Word64) : Word64 := mul64 (rotl64 (mul64 k c2) 33) c1

/-- The block step (R52), first half: `K1` into `H1`. -/
def absorbK1 (r : HashRegs) : HashRegs :=
  let k := mixK1 r.k1
  { r with k1 := k, h1 := add64 (mul64 (add64 (rotl64 (xor64 r.h1 k) 27) r.h2) 5) 0x52dce729#64 }

/-- The block step (R52), second half: `K2` into `H2`, with the `H1` just updated. -/
def absorbK2 (r : HashRegs) : HashRegs :=
  let k := mixK2 r.k2
  { r with k2 := k, h2 := add64 (mul64 (add64 (rotl64 (xor64 r.h2 k) 31) r.h1) 5) 0x38495ab5#64 }

/-- The block step (R52) on one message block of sixteen bytes: little-endian words, first eight bytes `K1`. -/
def blockStep (block : List Byte) (r : HashRegs) : HashRegs :=
  absorbK2 (absorbK1 { r with k1 := le64 (block.take 8), k2 := le64 ((block.drop 8).take 8) })

/-- The first `n` message blocks, cut by offset: message block `b` is `msg[16*b .. 16*b+15]` (R25). -/
def messageBlocks : Nat → List Byte → List (List Byte)
  | 0, _ => []
  | n + 1, msg => msg.take 16 :: messageBlocks n (msg.drop 16)

/-- The block steps of the first `n` message blocks, in order from the start of the message (R50, R52). -/
def blockLoop (n : Nat) (msg : List Byte) (r : HashRegs) : HashRegs :=
  (messageBlocks n msg).foldl (fun r block => blockStep block r) r

/-- One tail byte, unsigned, into its place (R53): `K1` for `i < 8`, `K2` for `i >= 8`. -/
def tailByte (i : Nat) (b : Byte) (r : HashRegs) : HashRegs :=
  if i ≥ 8 then { r with k2 := xor64 r.k2 (shl64 (b.setWidth 64) (8 * (i - 8))) }
  else { r with k1 := xor64 r.k1 (shl64 (b.setWidth 64) (8 * i)) }

/-- Tail bytes `i - 1` down to 0 (R53). -/
def tailLoop (tail : List Byte) : Nat → HashRegs → HashRegs
  | 0, r => r
  | i + 1, r => tailLoop tail i (tailByte i (tail.getD i 0) r)

/-- "if t >= 9": `K2` mixed into `H2`, with no rotation, addition or multiply-add of `H2` (R53). -/
def tailMixK2 (t : Nat) (r : HashRegs) : HashRegs :=
  if t ≥ 9 then { r with k2 := mixK2 r.k2, h2 := xor64 r.h2 (mixK2 r.k2) } else r

/-- "if t >= 1": `K1` mixed into `H1` (R53). -/
def tailMixK1 (t : Nat) (r : HashRegs) : HashRegs :=
  if t ≥ 1 then { r with k1 := mixK1 r.k1, h1 := xor64 r.h1 (mixK1 r.k1) } else r

/-- The tail step (R53). -/
def tailStep (tail : List Byte) (r : HashRegs) : HashRegs :=
  tailMixK1 tail.length (tailMixK2 tail.length (tailLoop tail tail.length { r with k1 := 0, k2 := 0 }))

/-- `h1 += h2; h2 += h1`, the second with the `h1` just produced (R54, R55). -/
def crossAdd (r : HashRegs) : HashRegs :=
  let h := add64 r.h1 r.h2
  { r with h1 := h, h2 := add64 r.h2 h }

/-- Length and first addition (R54). -/
def lengthStep (r : HashRegs) : HashRegs :=
  crossAdd { r with h1 := xor64 r.h1 r.len, h2 := xor64 r.h2 r.len }

/-- "xorshift-by-33": `k xor (k >> 33)`, the shift logical (R55). -/
def xorshift33 (k : Word64) : Word64 := xor64 k (shr64 k 33)

/-- The 64-bit avalanche finalizer (R55). -/
def fmix64 (k : Word64) : Word64 :=
  xorshift33 (mul64 (xorshift33 (mul64 (xorshift33 k) 0xff51afd7ed558ccd#64)) 0xc4ceb9fe1a85ec53#64)

/-- Avalanche and second addition (R55). -/
def avalancheStep (r : HashRegs) : HashRegs := crossAdd { r with h1 := fmix64 r.h1, h2 := fmix64 r.h2 }

/-- The datapath registers after all phases of `Murmur128(msg, seed)`, from any earlier content (R50). -/
def murmurRegs (ext : SeedExt) (msg : List Byte) (seed : Word32) (r : HashRegs) : HashRegs :=
  let blocks := msg.length / 16
  avalancheStep (lengthStep (tailStep (msg.drop (16 * blocks))
    (blockLoop blocks msg (initRegs ext seed msg.length r))))

/-- Output (R56): `H1` then `H2`, each little-endian. -/
def hashOutput (r : HashRegs) : Digest := digestOfList (bytesLe64 r.h1 ++ bytesLe64 r.h2)

/-- `Murmur128(msg, seed)` as a function of its inputs and `SEED_EXT` only (R50, R59 (a)). -/
def murmur128 (ext : SeedExt) (msg : List Byte) (seed : Word32) : Digest :=
  hashOutput (murmurRegs ext msg seed { h1 := 0, h2 := 0, k1 := 0, k2 := 0, len := 0 })

/-- One evaluation of `Murmur128` by the block, its result into `DIGEST` (R11, R50): the phases run on the
datapath registers, whose content afterwards is unspecified. -/
def evalHash (msg : List Byte) (seed : Word32) (s : State) : State :=
  releaseHashRegs (writeDigest (hashOutput (murmurRegs s.params.seedExt msg seed s.hashRegs)) s)

/-- `HASH seed, msg` (R58). -/
def execHash (seed : Word32) (msg : List Byte) (s : State) : Host.Outcome State Fault Refusal :=
  let s := evalHash msg seed s
  .next (respondOk s.digest.toList s)

end Sys2Proof.Machine
end

