-- ==== Sys2Proof/Machine/Filter.lean ====
section
/-! DEFINITION. Set and test logic (42_filter.md): the probe (R72), `INSERT` (R70), `CONTAINS` (R71). -/

namespace Sys2Proof.Machine

/-- Probe `i` of a message (R72): digest with seed `i`, then its bit address, all four registers written. -/
def probe (msg : List Byte) (i : Nat) (s : State) : State :=
  let s := evalHash msg (BitVec.ofNat 32 i) s
  writeIndex (bitAddress s.digest s.bitCount) s

/-- `MemWrite(BYTEINDEX, 1, MemRead(BYTEINDEX, 1) or MASK)`: the read-modify-write of a probe (R26, R70). -/
def setProbedBit (s : State) : State :=
  memWrite s.byteIndex.toNat (memRead s.byteIndex.toNat s ||| s.mask) s

/-- Is the probed bit set? `(MemRead(BYTEINDEX, 1) and MASK) = 0` is "unset" (R71). -/
def probedBit (s : State) : Bool := selectsBit (memRead s.byteIndex.toNat s) s.mask

/-- `INSERT`'s loop: `n` probes from seed `i` on, in seed order (R31, R70). -/
def insertLoop (msg : List Byte) : Nat → Nat → State → State
  | 0, _, s => s
  | n + 1, i, s => insertLoop msg n (i + 1) (setProbedBit (probe msg i s))

/-- `INSERT msg` (R70). -/
def execInsert (msg : List Byte) (s : State) : Host.Outcome State Fault Refusal :=
  if s.bitCount = 0 then .next (raiseStatus .eNocfg s)
  else .next (respondOk [] (writeProbes s.hashCount (insertLoop msg s.hashCount.toNat 0 s)))

/-- What `CONTAINS`'s loop leaves: the state, the answer, and how many probes ran. -/
structure TestResult where
  state : State
  answer : Bool
  probes : Nat
  deriving DecidableEq, Repr

/-- `CONTAINS`'s loop: `n` more probes from seed `i` on, left at the first whose bit is unset (R71). -/
def containsLoop (msg : List Byte) : Nat → Nat → State → TestResult
  | 0, i, s => { state := s, answer := true, probes := i }
  | n + 1, i, s =>
    let s := probe msg i s
    if probedBit s then containsLoop msg n (i + 1) s
    else { state := s, answer := false, probes := i + 1 }

/-- The byte of a boolean answer (R39, R71). -/
def answerByte (b : Bool) : Byte := if b then 0x01 else 0x00

/-- `CONTAINS msg` (R71). -/
def execContains (msg : List Byte) (s : State) : Host.Outcome State Fault Refusal :=
  if s.bitCount = 0 then .next (raiseStatus .eNocfg s)
  else
    let r := containsLoop msg s.hashCount.toNat 0 s
    .next (respondOk [answerByte r.answer]
      (writeProbes (BitVec.ofNat 16 r.probes) (writeResult r.answer r.state)))

end Sys2Proof.Machine
end

