-- ==== Sys2Proof/Machine/Index.lean ====
section
/-! DEFINITION. The `INDEX` command (41_index.md R64). -/

namespace Sys2Proof.Machine

/-- `INDEX d` (R64). The digest is the operand, not `DIGEST`, which it does not write (D32). -/
def execIndex (d : Digest) (s : State) : Host.Outcome State Fault Refusal :=
  if s.bitCount = 0 then .next (raiseStatus .eNocfg s)
  else
    let b := bitAddress d s.bitCount
    .next (respondOk (bytesBe32 b.bitIndex) (writeIndex b s))

end Sys2Proof.Machine
end

