-- ==== Sys2Proof/Machine/Dispatch.lean ====
section
/-! DEFINITION. One arm per command, each a direct call of its meaning. -/

namespace Sys2Proof.Machine

/-- One whole command, executed completely (20_memory.md R28). -/
def exec (i : Instr) (s : State) : Host.Outcome State Fault Refusal :=
  match i with
  | .hash seed msg => Sys2Proof.Machine.execHash seed msg s
  | .index d => Sys2Proof.Machine.execIndex d s
  | .insert msg => Sys2Proof.Machine.execInsert msg s
  | .contains msg => Sys2Proof.Machine.execContains msg s
  | .config hashCount bitCount => Sys2Proof.Machine.execConfig hashCount bitCount s
  | .rdarr addr => Sys2Proof.Machine.execRdarr addr s
  | .wrarr addr data => Sys2Proof.Machine.execWrarr addr data s
  | .rdreg regno => Sys2Proof.Machine.execRdreg regno s

end Sys2Proof.Machine
end

