-- ==== Sys2Proof/Machine/Port.lean ====
section
/-! DEFINITION. The command port: what one event of the host does to the block (30_encoding.md R33, R34;
60_exceptions.md R101 to R103; 70_reset_and_hazards.md R110, R113, R115). -/

namespace Sys2Proof.Machine

/-- One byte accepted by a block that is not halted: it joins `PKT`, and the packet takes effect when its last byte
has arrived and not before (R20, R34). An illegal opcode byte is a whole packet and fails with `E_ILLEGAL` (R101). -/
def acceptByte (b : Byte) (s : State) : Host.Outcome State Fault Refusal :=
  match decode (s.pkt ++ [b]) with
  | .incomplete => .next { s with pkt := s.pkt ++ [b] }
  | .illegal rest => .next (raiseStatus .eIllegal { s with pkt := rest })
  | .packet i rest => exec i { s with pkt := rest }

/-- One byte of the host's: discarded while `HALT = 1` (R103), accepted otherwise. -/
def portByte (b : Byte) (s : State) : Host.Outcome State Fault Refusal :=
  if s.halt then .next s else acceptByte b s

/-- Why a block the host has left alone makes no step (R103, R109, R113). -/
def waitFault (s : State) : Fault :=
  if s.halt then .halted else if s.pkt = [] then .idle else .incompletePacket

/-- The next event of the host, taken from `input`. -/
def portStep (s : State) : Host.Outcome State Fault Refusal :=
  match s.input with
  | [] => .fault (waitFault s)
  | .reset :: rest => .next (resetBlock { s with input := rest })
  | .byte b :: rest => portByte b { s with input := rest }

/-- The host does more, after everything it has done so far (R4, R115). -/
def hostDoes (events : List HostEvent) (s : State) : State := { s with input := s.input ++ events }

/-- Bytes as the host's events. -/
def bytesIn (b : List Byte) : List HostEvent := b.map .byte

/-- A packet placed so that the block's very next step completes it: all its bytes but the last in `PKT`, the last
one at the head of `input`, and `HALT` clear, since a halted block fetches nothing (log 9). -/
def placePacket (p : List Byte) (s : State) : State :=
  { s with halt := false, pkt := p.dropLast, input := bytesIn (p.drop (p.length - 1)) ++ s.input }

end Sys2Proof.Machine
end

