-- ==== Sys2Proof/Machine/Step.lean ====
section
/-! DEFINITION. One step of the block: the next event of the host (Machine/Port.lean). -/

namespace Sys2Proof.Machine

/-- One step. -/
def step (s : State) : Host.Outcome State Fault Refusal := portStep s

/-- `s` with the instruction whose bits are `w` (spec/opcode_table.json's numbering) where the next step takes its
packet, so that that step runs it. -/
def State.withFetchWord (s : State) (nbits w : Nat) : State := placePacket (Sys2Proof.tablePacket nbits w) s

end Sys2Proof.Machine
end

