-- ==== Sys2Proof/Machine/Assembler.lean ====
section
/-! DEFINITION. The textual notation (30_encoding.md R40, R41): one command per line to the bytes it puts into the
stream. There is no toolchain; what the two rules leave open is in log 14. -/

namespace Sys2Proof.Machine

/-- What one line puts into the stream (R40). -/
inductive AsmLine where
  /-- Nothing but blanks and a comment. -/
  | blank
  /-- A command: its packet. -/
  | command (i : Instr)
  /-- `.byte`: one raw byte. -/
  | raw (b : Byte)
  deriving DecidableEq, Repr

/-- Blank characters between words. -/
def isBlank (c : Char) : Bool := c == ' ' || c == '\t'

/-- Blanks at both ends removed. -/
def trimBlanks (l : List Char) : List Char :=
  ((l.dropWhile isBlank).reverse.dropWhile isBlank).reverse

/-- "A `;` starts a comment to the end of the line" (R40), but not inside a quoted string (log 14). -/
def stripComment : Bool → List Char → List Char
  | _, [] => []
  | quoted, c :: l =>
    if c = ';' ∧ quoted = false then []
    else c :: stripComment (quoted != (c == '"')) l

/-- Operands apart at the commas that stand outside a quoted string. -/
def splitCommas : Bool → List Char → List (List Char)
  | _, [] => [[]]
  | quoted, c :: l =>
    if c = ',' ∧ quoted = false then [] :: splitCommas quoted l
    else
      match splitCommas (quoted != (c == '"')) l with
      | [] => [[c]]
      | w :: ws => (c :: w) :: ws

/-- A digit's value, `none` at or above the base. -/
def digitValue (base : Nat) (c : Char) : Option Nat :=
  let n := c.toNat
  let v := if 48 ≤ n ∧ n ≤ 57 then n - 48
    else if 97 ≤ n ∧ n ≤ 102 then n - 87
    else if 65 ≤ n ∧ n ≤ 70 then n - 55
    else base
  if v < base then some v else none

/-- Digits after a value already read. -/
def digitsValue (base : Nat) : Nat → List Char → Option Nat
  | acc, [] => some acc
  | acc, c :: l =>
    match digitValue base c with
    | none => none
    | some v => digitsValue base (acc * base + v) l

/-- At least one digit. -/
def numeral (base : Nat) (l : List Char) : Option Nat :=
  if l = [] then none else digitsValue base 0 l

/-- "a decimal number or a hexadecimal number with `0x`" (R41). -/
def unsignedNumber (l : List Char) : Option Nat :=
  match l with
  | '0' :: 'x' :: h => numeral 16 h
  | _ => numeral 10 l

/-- A number that fits an unsigned field of `w` bits. -/
def unsignedField (w : Nat) (l : List Char) : Option (BitVec w) :=
  match unsignedNumber l with
  | none => none
  | some n => if n < 2 ^ w then some (BitVec.ofNat w n) else none

/-- "a negative decimal `<bitCount>` or `<seed>` is encoded as its 32-bit two's complement" (R41). -/
def signedField (l : List Char) : Option Word32 :=
  match l with
  | '-' :: d =>
    match numeral 10 d with
    | none => none
    | some n => if n ≤ 2 ^ 31 then some (BitVec.ofInt 32 (-(n : Int))) else none
  | _ => unsignedField 32 l

/-- The register names of R18 with their numbers (R41). -/
def registerNames : List (List Char × Byte) :=
  [("STATUS".toList, 0x00), ("BITCOUNT".toList, 0x01), ("HASHCOUNT".toList, 0x02), ("NBYTES".toList, 0x03),
   ("BITINDEX".toList, 0x04), ("BYTEINDEX".toList, 0x05), ("MASK".toList, 0x06), ("DIGEST0".toList, 0x08),
   ("DIGEST1".toList, 0x09), ("DIGEST2".toList, 0x0A), ("DIGEST3".toList, 0x0B)]

/-- `<reg>`: "a register number or one of the names" (R41). -/
def registerOperand (l : List Char) : Option Byte :=
  match registerNames.find? (fun p => p.1 == l) with
  | some p => some p.2
  | none => unsignedField 8 l

/-- The UTF-8 bytes of a character (R41). -/
def utf8Bytes (c : Char) : List Byte := (String.utf8EncodeChar c).map UInt8.toBitVec

/-- The characters of a quoted string up to its closing quote, which ends the operand. -/
def quotedChars : List Char → Option (List Char)
  | [] => none
  | c :: l => if c = '"' then (if l = [] then some [] else none) else (quotedChars l).map (c :: ·)

/-- Two hexadecimal digits per byte, first byte first (R41). -/
def hexBytes : List Char → Option (List Byte)
  | [] => some []
  | a :: b :: l =>
    match digitValue 16 a, digitValue 16 b, hexBytes l with
    | some x, some y, some r => some (BitVec.ofNat 8 (16 * x + y) :: r)
    | _, _, _ => none
  | _ => none

/-- `<bytes>`: a quoted string or `x"..."` (R41), no longer than a packet can carry (R23). -/
def bytesOperand (l : List Char) : Option (List Byte) :=
  let b := match l with
    | '"' :: s => (quotedChars s).map (List.flatMap utf8Bytes)
    | 'x' :: '"' :: s =>
      match quotedChars s with
      | none => none
      | some h => hexBytes h
    | _ => none
  match b with
  | none => none
  | some b => if b.length < 2 ^ 32 then some b else none

/-- `<bytes16>`: "a `<bytes>` of exactly 16 bytes" (R41). -/
def digestOperand (l : List Char) : Option Digest :=
  match bytesOperand l with
  | none => none
  | some b => if b.length = 16 then some (digestOfList b) else none

/-- A mnemonic with its operands (R40). -/
def assembleWords (mnemonic : List Char) (ops : List (List Char)) : Option AsmLine :=
  match ops with
  | [a] =>
    if mnemonic = "INDEX".toList then (digestOperand a).map (fun d => .command (.index d))
    else if mnemonic = "INSERT".toList then (bytesOperand a).map (fun b => .command (.insert b))
    else if mnemonic = "CONTAINS".toList then (bytesOperand a).map (fun b => .command (.contains b))
    else if mnemonic = "RDARR".toList then (unsignedField 32 a).map (fun n => .command (.rdarr n))
    else if mnemonic = "RDREG".toList then (registerOperand a).map (fun r => .command (.rdreg r))
    else if mnemonic = ".byte".toList then (unsignedField 8 a).map .raw
    else none
  | [a, b] =>
    if mnemonic = "HASH".toList then
      match signedField a, bytesOperand b with
      | some seed, some msg => some (.command (.hash seed msg))
      | _, _ => none
    else if mnemonic = "CONFIG".toList then
      match unsignedField 16 a, signedField b with
      | some hc, some bc => some (.command (.config hc bc))
      | _, _ => none
    else if mnemonic = "WRARR".toList then
      match unsignedField 32 a, unsignedField 8 b with
      | some addr, some data => some (.command (.wrarr addr data))
      | _, _ => none
    else none
  | _ => none

/-- One line read (R40). -/
def parseLine (line : List Char) : Option AsmLine :=
  let l := trimBlanks (stripComment false line)
  if l = [] then some .blank
  else
    let mnemonic := l.takeWhile (fun c => !isBlank c)
    assembleWords mnemonic ((splitCommas false (l.drop mnemonic.length)).map trimBlanks)

/-- The bytes a line puts into the stream. -/
def lineBytes : AsmLine → List Byte
  | .blank => []
  | .command i => encode i
  | .raw b => [b]

/-- One line assembled; `none` if it is no line of R40. -/
def assembleLine (line : List Char) : Option (List Byte) := (parseLine line).map lineBytes

end Sys2Proof.Machine
end

