-- ==== Sys2Proof/Machine/Image.lean ====
section
/-! DEFINITION. The stored image (44_host_procedures.md R93), the checks a host makes of one before it sends anything
(R95), and the source's error kinds (R98). Host software, not hardware (00_scope.md R2 (f)). -/

namespace Sys2Proof.Machine

/-- The source's three error kinds (R98). Underlying I/O failures are the stream's own (R3 (c)). -/
inductive HostError where
  /-- A constructor argument the host refuses (R90, R92). -/
  | invalidParameter
  /-- Magic mismatch, and by the spec's choice a wrong length or a `bitCount` out of range (R95). -/
  | invalidFormat
  /-- "carries the offending version value for diagnostics" (R95, R98). -/
  | unsupportedVersion (version : Word16)
  deriving DecidableEq, Repr

/-- What an image carries (R93, R96). -/
structure Image where
  hashCount : Word16
  bitCount : Word32
  array : List Byte
  deriving DecidableEq, Repr

/-- ASCII `"CCBF"` (R93). -/
def imageMagic : List Byte := [0x43, 0x43, 0x42, 0x46]

/-- The one supported format version, 1 (R93). -/
def imageVersion : Word16 := 1

/-- The bytes of an image (R93). -/
def imageBytes (m : Image) : List Byte :=
  imageMagic ++ bytesBe16 imageVersion ++ bytesBe16 m.hashCount ++ bytesBe32 m.bitCount ++ m.array

/-- `img[a .. a + n - 1]` (R95). -/
def imageField (img : List Byte) (first n : Nat) : List Byte := (img.drop first).take n

/-- The checks of `LOAD`, in the order of R95: short stream or magic, version, `bitCount`, length. -/
def checkImage (img : List Byte) : Except HostError Image :=
  if img.length < 12 ∨ imageField img 0 4 ≠ imageMagic then .error .invalidFormat
  else if be16 (imageField img 4 2) ≠ imageVersion then .error (.unsupportedVersion (be16 (imageField img 4 2)))
  else
    let bc := be32 (imageField img 8 4)
    if bc.msb ∨ bc = 0 then .error .invalidFormat
    else if img.length ≠ 12 + arrayBytes bc then .error .invalidFormat
    else .ok { hashCount := be16 (imageField img 6 2), bitCount := bc, array := img.drop 12 }

end Sys2Proof.Machine
end

