-- ==== Sys2Proof/Machine/HostProc.lean ====
section
/-! DEFINITION. The host procedures over the command port: one command sent and answered (R34, R39), `HASHIDX` (R65),
`NEWFILTER` (R90 to R92), `SAVE` (R94), `LOAD` (R95). Host software, not hardware (R2 (f), R3 (c)): each is a function
that sends packets to the block and reads its responses. `none` is a host that waits for ever: the block halted or the
port stuck inside a packet (R103, R113). -/

namespace Sys2Proof.Machine

/-- `k` steps, stopping at the first that gives no next state. `Laws/Step.lean`: the same as `Host.Core.run`. -/
def runSteps : Nat → State → Host.Outcome State Fault Refusal
  | 0, s => .next s
  | k + 1, s =>
    match step s with
    | .next t => runSteps k t
    | .fault f => .fault f
    | .refused r => .refused r

/-- The host sends one whole packet and takes the bytes the block answers it with: the block runs one step for every
byte sent. -/
def hostSend (i : Instr) (s : State) : Option (State × List Byte) :=
  match runSteps (encode i).length (hostDoes (bytesIn (encode i)) s) with
  | .next t => some (t, t.output.drop s.output.length)
  | .fault _ => none
  | .refused _ => none

/-- A successful response's data: what follows the status byte `OK` (R39). -/
def okData : List Byte → Option (List Byte)
  | [] => none
  | b :: data => if b = statusCode .ok then some data else none

/-- `HASHIDX seed, msg` (R65): the two packets `HASH seed, msg` and `INDEX d`, `d` the data bytes of the first
response; the second response, whole, is the result. -/
def hostHashIdx (seed : Word32) (msg : List Byte) (s : State) : Option (State × List Byte) :=
  match hostSend (.hash seed msg) s with
  | none => none
  | some (s1, r1) =>
    match okData r1 with
    | none => none
    | some d => hostSend (.index (digestOfList d)) s1

/-- One register read by number: the 32-bit value (R39, R83). -/
def hostReadReg (regno : Byte) (s : State) : Option (State × Word32) :=
  match hostSend (.rdreg regno) s with
  | none => none
  | some (t, r) => (okData r).map (fun data => (t, be32 data))

/-- `RDARR a` for `n` addresses from `a` on (R94). -/
def hostReadArray : Nat → Nat → State → Option (State × List Byte)
  | 0, _, s => some (s, [])
  | n + 1, a, s =>
    match hostSend (.rdarr (BitVec.ofNat 32 a)) s with
    | none => none
    | some (s1, r) =>
      match okData r with
      | none => none
      | some data =>
        match hostReadArray n (a + 1) s1 with
        | none => none
        | some (s2, rest) => some (s2, data ++ rest)

/-- `SAVE` (R94): the image written to the sink; no image "if bc = 0 there is no filter to save". -/
def hostSave (s : State) : Option (State × Option (List Byte)) :=
  match hostReadReg 0x02 s with
  | none => none
  | some (s1, hc) =>
    match hostReadReg 0x01 s1 with
    | none => none
    | some (s2, bc) =>
      if bc = 0 then some (s2, none)
      else
        match hostReadArray (arrayBytes bc) 0 s2 with
        | none => none
        | some (s3, array) =>
          some (s3, some (imageBytes { hashCount := hc.setWidth 16, bitCount := bc, array := array }))

/-- `WRARR a, b` for the bytes of a list at addresses from `a` on (R95). -/
def hostWriteArray : List Byte → Nat → State → Option State
  | [], _, s => some s
  | b :: array, a, s =>
    match hostSend (.wrarr (BitVec.ofNat 32 a) b) s with
    | none => none
    | some (s1, r) =>
      match okData r with
      | none => none
      | some _ => hostWriteArray array (a + 1) s1

/-- `CONFIG hashCount, bitCount`, a refusal reported as the given error kind (R92, R95). -/
def hostConfig (hashCount : Word16) (bitCount : Word32) (onRefusal : HostError) (s : State) :
    Option (State × Except HostError Unit) :=
  match hostSend (.config hashCount bitCount) s with
  | none => none
  | some (s1, r) =>
    if r = [statusCode .ok] then some (s1, .ok ())
    else if r = [statusCode .eCfg] then some (s1, .error onRefusal)
    else none

/-- `LOAD` (R95): every check before the first packet, then `CONFIG`, then the array verbatim. -/
def hostLoad (img : List Byte) (s : State) : Option (State × Except HostError Unit) :=
  match checkImage img with
  | .error e => some (s, .error e)
  | .ok m =>
    match hostConfig m.hashCount m.bitCount .invalidFormat s with
    | none => none
    | some (s1, .error e) => some (s1, .error e)
    | some (s1, .ok _) => (hostWriteArray m.array 0 s1).map (fun s2 => (s2, .ok ()))

/-- The numbers and operations a host computes sizes with (R91). "The document does not say in what arithmetic the
logarithms and the division are done" (N11): which one is open (D30, U8, log 15). The formulas are not. -/
structure HostArith where
  /-- The numbers. -/
  Num : Type
  /-- An integer as a number. -/
  ofInt : Int → Num
  /-- A rational as a number. -/
  ofRat : Rat → Num
  /-- The natural logarithm. -/
  ln : Num → Num
  /-- Negation. -/
  neg : Num → Num
  /-- The product. -/
  mul : Num → Num → Num
  /-- The quotient. -/
  div : Num → Num → Num
  /-- The floor. -/
  floor : Num → Int

/-- `bitCount = floor( -(elementCount * ln(epsilon)) / (ln 2)^2 )` (R91), in the host's arithmetic. -/
def sizedBitCount (ar : HostArith) (elementCount : Int) (epsilon : Rat) : Int :=
  ar.floor (ar.div (ar.neg (ar.mul (ar.ofInt elementCount) (ar.ln (ar.ofRat epsilon))))
    (ar.mul (ar.ln (ar.ofInt 2)) (ar.ln (ar.ofInt 2))))

/-- `hashCount = floor( -(ln(epsilon) / ln 2) )` (R91), in the host's arithmetic. -/
def sizedHashCount (ar : HostArith) (epsilon : Rat) : Int :=
  ar.floor (ar.neg (ar.div (ar.ln (ar.ofRat epsilon)) (ar.ln (ar.ofInt 2))))

/-- Sizes no filter can have whatever the block's capacity (R92): no `bitCount` of R14, or a `hashCount` the 16-bit
field cannot hold. -/
abbrev UnbuildableSizes (bitCount hashCount : Int) : Prop :=
  bitCount < 1 ∨ bitCount > 2 ^ 31 - 1 ∨ hashCount < 0 ∨ hashCount > 65535

/-- `NEWFILTER elementCount, epsilon` (R90 to R92): the check of `epsilon`, the sizes by the formulas of R91 in the
host's arithmetic, and one `CONFIG hashCount, bitCount`. That unbuildable sizes send no packet: log 15. -/
def hostNewFilter (ar : HostArith) (elementCount : Int) (epsilon : Rat) (s : State) :
    Option (State × Except HostError Unit) :=
  if ¬ (0 < epsilon ∧ epsilon < 1) then some (s, .error .invalidParameter)
  else if UnbuildableSizes (sizedBitCount ar elementCount epsilon) (sizedHashCount ar epsilon) then
    some (s, .error .invalidParameter)
  else
    hostConfig (BitVec.ofInt 16 (sizedHashCount ar epsilon)) (BitVec.ofInt 32 (sizedBitCount ar elementCount epsilon))
      .invalidParameter s

/-- The sizing formulas of R91 in exact real arithmetic, as a relation. -/
def SizingFormula (elementCount : Int) (epsilon : Rat) (bitCount hashCount : Int) : Prop :=
  bitCount = ⌊-((elementCount : ℝ) * Real.log (epsilon : ℝ)) / (Real.log 2) ^ 2⌋ ∧
  hashCount = ⌊-(Real.log (epsilon : ℝ) / Real.log 2)⌋

end Sys2Proof.Machine
end

