-- ==== Sys2Proof/Safety.lean ====
section
/-! DEFINITION. The terms claims are stated in: the invariant of a block, what a configured, idle or halted block is,
a sequence of commands, what it is for a filter to remember an element, and how exact a host's sizing arithmetic is. -/

namespace Sys2Proof.Machine

/-- "configured: `BITCOUNT != 0`" (R8). -/
abbrev Configured (s : State) : Prop := s.bitCount ≠ 0

/-- At a packet boundary, not halted, nothing sent and not taken. -/
abbrev PortIdle (s : State) : Prop := s.halt = false ∧ s.pkt = [] ∧ s.input = []

/-- `BITCOUNT` is 0 or a legal bit count of this block (R14). -/
abbrev LegalBitCount (s : State) : Prop :=
  s.bitCount = 0 ∨ (s.bitCount.msb = false ∧ nbytes s ≤ s.params.arrayBytesMax)

/-- The index registers: all 0 before the first evaluation of `BitAddress`, else consistent (R13). -/
abbrev IndexConsistent (s : State) : Prop :=
  (s.bitIndex = 0 ∧ s.byteIndex = 0 ∧ s.mask = 0) ∨
  (s.bitCount ≠ 0 ∧ s.bitIndex.msb = false ∧ s.byteIndex = BitVec.ofNat 32 (s.bitIndex.toNat / 8) ∧
    s.mask = maskOf s.bitIndex.toNat)

/-- The invariant of a block: R6 (parameters), R14 (`BITCOUNT`), R13 (index registers), R16 (`ERRFLAGS` bits 5 to 7),
R102 (`HALT` exactly with `F_ILLEGAL`), R20 (`PKT` is a packet not yet complete, empty while halted), and the
canonical form of `BITS` within its capacity (R19). -/
structure State.Inv (s : State) : Prop where
  params : s.params.WellFormed
  bitCount : LegalBitCount s
  index : IndexConsistent s
  errFlags : s.errFlags.toNat < 32
  halt : s.halt = s.errFlags.getLsbD 0
  haltPkt : s.halt = true → s.pkt = []
  pkt : decode s.pkt = .incomplete
  bits : s.bits.wf
  capacity : ∀ c ∈ s.bits, c.1 < s.params.arrayBytesMax

/-- A sequence of whole packets (R117), stopping at the first that gives no next state. -/
def execAll : List Instr → State → Host.Outcome State Fault Refusal
  | [], s => .next s
  | i :: is, s =>
    match exec i s with
    | .next t => execAll is t
    | .fault f => .fault f
    | .refused r => .refused r

/-- The commands that cannot turn a 1 of `BITS` into a 0: all but `CONFIG` and `WRARR` (R19, R73, R75). -/
def KeepsBits : Instr → Bool
  | .hash _ _ => true
  | .index _ => true
  | .insert _ => true
  | .contains _ => true
  | .config _ _ => false
  | .rdarr _ => true
  | .wrarr _ _ => false
  | .rdreg _ => true

/-- Where probe `i` of a message falls (R72), computed from the parameters and the configuration alone. -/
def probeAddr (p : Params) (bitCount : Word32) (msg : List Byte) (i : Nat) : BitAddr :=
  bitAddress (murmur128 p.seedExt msg (BitVec.ofNat 32 i)) bitCount

/-- Is the bit of probe `i` of a message set in `BITS`? (R71). -/
def probeSet (s : State) (msg : List Byte) (i : Nat) : Bool :=
  let b := probeAddr s.params s.bitCount msg i
  selectsBit (memRead b.byteIndex.toNat s) b.mask

/-- Every probe bit of the message is set: "If all `hashCount` bits are set, return true" (R71). -/
abbrev Remembers (s : State) (msg : List Byte) : Prop := ∀ i, i < s.hashCount.toNat → probeSet s msg i = true

/-- What `INSERT msg` with `n` probes makes of the byte `v` at address `a`: the masks of the probes that fall there
or-ed in (R70, R74). -/
def insertedByte (p : Params) (bitCount : Word32) (msg : List Byte) (n a : Nat) (v : Byte) : Byte :=
  (List.range n).foldl (fun v i =>
    if (probeAddr p bitCount msg i).byteIndex.toNat = a then v ||| (probeAddr p bitCount msg i).mask else v) v

/-- Filter bit `i` as a boolean: bit `7 - (i mod 8)` of `BITS[i div 8]` (R19, R62). -/
def filterBit (s : State) (i : Nat) : Bool := (memRead (i / 8) s).getLsbD (7 - i % 8)

/-- Exact real arithmetic: one of the arithmetics R91 leaves open. -/
noncomputable def realArith : HostArith where
  Num := ℝ
  ofInt := fun n => n
  ofRat := fun q => q
  ln := Real.log
  neg := fun x => -x
  mul := fun x y => x * y
  div := fun x y => x / y
  floor := fun x => ⌊x⌋

/-- The quotients this arithmetic takes the floor of, for these arguments, differ from the exact ones of R91 by at most
`δ`. -/
def SizesWithin (δ : ℝ) (ar : HostArith) (elementCount : Int) (epsilon : Rat) : Prop :=
  ∃ x y : ℝ,
    |x - -((elementCount : ℝ) * Real.log (epsilon : ℝ)) / (Real.log 2) ^ 2| ≤ δ ∧
    |y - -(Real.log (epsilon : ℝ) / Real.log 2)| ≤ δ ∧
    sizedBitCount ar elementCount epsilon = ⌊x⌋ ∧ sizedHashCount ar epsilon = ⌊y⌋

end Sys2Proof.Machine
end

