-- ==== Sys2Proof/Certificates/Slice0/Obligations.lean ====
section
/-! DEFINITION. The statements for the provers. `Claims.*` are the words the statements share; each obligation's
docstring names the rule of spec/ it formalises. Frames are written as `t = { s with … }`: every register, flag and
byte of memory not named there is as before. -/

open Sys2Proof Sys2Proof.Machine

namespace Claims

/-- The sixteen bytes whose only use is R61's corner case. -/
def allOnes : Digest := Vector.replicate 16 0xff#8

/-- A byte that is no opcode: `0x00` or `0x09 .. 0xFF` (R38). -/
abbrev IllegalOpcode (b : Byte) : Prop := b = 0x00#8 ∨ 0x09#8 ≤ b

/-- Which status code a command fails with in a state, and none if it succeeds: the table of R100 in the order of
R105. -/
def failureOf (i : Instr) (s : State) : Option Status :=
  match i with
  | .hash _ _ => none
  | .index _ => if s.bitCount = 0 then some .eNocfg else none
  | .insert _ => if s.bitCount = 0 then some .eNocfg else none
  | .contains _ => if s.bitCount = 0 then some .eNocfg else none
  | .config _ bc =>
    if bc = 0 ∨ bc.toNat ≥ 2 ^ 31 ∨ (bc.toNat + 7) / 8 > s.params.arrayBytesMax then some .eCfg else none
  | .rdarr addr =>
    if s.bitCount = 0 then some .eNocfg
    else if addr.toNat ≥ (s.bitCount.toNat + 7) / 8 then some .eAddr else none
  | .wrarr addr _ =>
    if s.bitCount = 0 then some .eNocfg
    else if addr.toNat ≥ (s.bitCount.toNat + 7) / 8 then some .eAddr else none
  | .rdreg r => if r = 0x07#8 ∨ r.toNat ≥ 0x0C then some .eReg else none

/-- How many data bytes follow the status byte of a successful command (R39). -/
def okDataLength : Instr → Nat
  | .hash _ _ => 16
  | .index _ => 4
  | .insert _ => 0
  | .contains _ => 1
  | .config _ _ => 0
  | .rdarr _ => 1
  | .wrarr _ _ => 0
  | .rdreg _ => 4

/-- An outcome with its next state changed. -/
def mapNext (f : State → State) : Host.Outcome State Fault Refusal → Host.Outcome State Fault Refusal
  | .next t => .next (f t)
  | .fault e => .fault e
  | .refused r => .refused r

/-- One outcome and then, from its next state, another. -/
def andThen (o : Host.Outcome State Fault Refusal) (f : State → Host.Outcome State Fault Refusal) :
    Host.Outcome State Fault Refusal :=
  match o with
  | .next t => f t
  | .fault e => .fault e
  | .refused r => .refused r

/-- The index registers and `DIGEST` hold what probe `i` of `msg` computes (R72). -/
abbrev LastProbe (t : State) (msg : List Byte) (i : Nat) : Prop :=
  t.digest = murmur128 t.params.seedExt msg (BitVec.ofNat 32 i) ∧
  t.bitIndex = (probeAddr t.params t.bitCount msg i).bitIndex ∧
  t.byteIndex = (probeAddr t.params t.bitCount msg i).byteIndex ∧
  t.mask = (probeAddr t.params t.bitCount msg i).mask

/-- No probe ran: `DIGEST` and the index registers are as they were. -/
abbrev NoProbe (s t : State) : Prop :=
  t.digest = s.digest ∧ t.bitIndex = s.bitIndex ∧ t.byteIndex = s.byteIndex ∧ t.mask = s.mask

/-- A command that spares element `e` of the filter of `s`: no `CONFIG` that succeeds, no `WRARR` of a byte without one
of `e`'s bits that lie there (R73). -/
def SparesElement (s : State) (e : List Byte) : Instr → Prop
  | .config _ bc => bc = 0 ∨ bc.toNat ≥ 2 ^ 31 ∨ (bc.toNat + 7) / 8 > s.params.arrayBytesMax
  | .wrarr addr data => ∀ k, k < s.hashCount.toNat → (probeAddr s.params s.bitCount e k).byteIndex = addr →
      selectsBit data (probeAddr s.params s.bitCount e k).mask = true
  | .hash _ _ => True
  | .index _ => True
  | .insert _ => True
  | .contains _ => True
  | .rdarr _ => True
  | .rdreg _ => True

/-- A command between two successful `CONFIG`s and without `WRARR` (R75): any other, and a `CONFIG` the block refuses. -/
abbrev LeavesOnes (p : Params) (i : Instr) : Prop :=
  KeepsBits i = true ∨
  ∃ hc bc, i = .config hc bc ∧ (bc = 0 ∨ bc.toNat ≥ 2 ^ 31 ∨ (bc.toNat + 7) / 8 > p.arrayBytesMax)

/-- The byte sequence `00 01 .. n-1`. -/
def countingBytes (n : Nat) : List Byte := (List.range n).map (BitVec.ofNat 8)

end Claims

/-! ### Packets -/

/-- Decoding the packet of a well-formed command gives the command back, with every operand, and leaves what follows
(30_encoding.md sections 2 and 3: R35, R36, R37). -/
def Obligations.DecodeOfEncode : Prop :=
  ∀ (i : Instr) (rest : List Byte), i.WellFormed → decode (encode i ++ rest) = .packet i rest

/-- The other direction: whatever bytes the decoder reads as a command are that command's packet and what follows it
(30_encoding.md sections 1 to 3: one meaning per packet). -/
def Obligations.EncodeOfDecode : Prop :=
  ∀ (p : List Byte) (i : Instr) (rest : List Byte), decode p = .packet i rest →
    i.WellFormed ∧ p = encode i ++ rest

/-- R37, R38: a first byte is an opcode exactly when it is `0x01 .. 0x08`; any other is a whole packet of one byte,
whatever follows; and the eight packets begin with the opcodes of the table. -/
def Obligations.OpcodeMapIsTheTable : Prop :=
  (∀ (b : Byte) (rest : List Byte), decode (b :: rest) = .illegal rest ↔ Claims.IllegalOpcode b) ∧
  (∀ (seed : Word32) (msg : List Byte), (encode (.hash seed msg)).head? = some 0x01#8) ∧
  (∀ d : Digest, (encode (.index d)).head? = some 0x02#8) ∧
  (∀ msg : List Byte, (encode (.insert msg)).head? = some 0x03#8) ∧
  (∀ msg : List Byte, (encode (.contains msg)).head? = some 0x04#8) ∧
  (∀ (hc : Word16) (bc : Word32), (encode (.config hc bc)).head? = some 0x05#8) ∧
  (∀ addr : Word32, (encode (.rdarr addr)).head? = some 0x06#8) ∧
  (∀ (addr : Word32) (data : Byte), (encode (.wrarr addr data)).head? = some 0x07#8) ∧
  (∀ regno : Byte, (encode (.rdreg regno)).head? = some 0x08#8)

/-- R33: the packet length of each format: from the first byte alone, whatever follows it, for five formats; from the
`len` field of the first 9 bytes for format S and of the first 5 for format M, and not before they are there; an illegal
opcode is a packet of length 1. -/
def Obligations.PacketLengthsAreTheTables : Prop :=
  ∀ (b : Byte) (tail : List Byte),
    (Claims.IllegalOpcode b → packetLength (b :: tail) = some 1) ∧
    (b = 0x01#8 → packetLength (b :: tail) =
      if (b :: tail).length < 9 then none else some (9 + beNat (((b :: tail).drop 5).take 4))) ∧
    ((b = 0x03#8 ∨ b = 0x04#8) → packetLength (b :: tail) =
      if (b :: tail).length < 5 then none else some (5 + beNat (((b :: tail).drop 1).take 4))) ∧
    (b = 0x02#8 → packetLength (b :: tail) = some 17) ∧
    (b = 0x05#8 → packetLength (b :: tail) = some 7) ∧
    (b = 0x06#8 → packetLength (b :: tail) = some 5) ∧
    (b = 0x07#8 → packetLength (b :: tail) = some 6) ∧
    (b = 0x08#8 → packetLength (b :: tail) = some 2)

/-- A packet is not complete before its last byte (R34): every proper prefix of one is incomplete. -/
def Obligations.PrefixesAreIncomplete : Prop :=
  ∀ (i : Instr) (q r : List Byte), i.WellFormed → encode i = q ++ r → r ≠ [] → decode q = .incomplete

/-- One packet of every command, written out from the formats of R35, decodes to the command it stands for. -/
def Obligations.SpecPacketsDecode : Prop :=
  decode [0x01, 0x00, 0x00, 0x00, 0x05, 0x00, 0x00, 0x00, 0x04, 0x43, 0x43, 0x42, 0x46] =
    .packet (.hash 5 [0x43, 0x43, 0x42, 0x46]) [] ∧
  decode [0x02, 0x05, 0x0f, 0x8d, 0x3c, 0xcb, 0x4a, 0xdf, 0xae, 0xd5, 0x1c, 0x9c, 0xca, 0x61, 0x42, 0x47, 0x96] =
    .packet (.index #v[0x05, 0x0f, 0x8d, 0x3c, 0xcb, 0x4a, 0xdf, 0xae, 0xd5, 0x1c, 0x9c, 0xca, 0x61, 0x42, 0x47,
      0x96]) [] ∧
  decode [0x03, 0x00, 0x00, 0x00, 0x05, 0x68, 0x65, 0x6c, 0x6c, 0x6f] =
    .packet (.insert [0x68, 0x65, 0x6c, 0x6c, 0x6f]) [] ∧
  decode [0x04, 0x00, 0x00, 0x00, 0x01, 0x65] = .packet (.contains [0x65]) [] ∧
  decode [0x05, 0x00, 0x06, 0x00, 0x00, 0x25, 0x71] = .packet (.config 6 9585) [] ∧
  decode [0x06, 0x00, 0x00, 0x10, 0x00] = .packet (.rdarr 4096) [] ∧
  decode [0x07, 0x00, 0x00, 0x00, 0x01, 0x07] = .packet (.wrarr 1 0x07) [] ∧
  decode [0x08, 0x0b] = .packet (.rdreg 0x0b) [] ∧
  decode [0x09] = .illegal []

/-! ### The port -/

/-- A step runs the decoded command: when the next byte completes a packet, the step is that command on the state with
the byte taken and the packet out of `PKT` (R20, R34). -/
def Obligations.StepRunsDecodedCommand : Prop :=
  ∀ (s : State) (b : Byte) (more : List HostEvent) (i : Instr) (rest : List Byte),
    s.halt = false → s.input = .byte b :: more → decode (s.pkt ++ [b]) = .packet i rest →
    step s = exec i { s with input := more, pkt := rest }

/-- A word of the opcode table's numbering, placed where the step takes its packet, is what the very next step runs
(log 9). -/
def Obligations.FetchWordRunsNext : Prop :=
  ∀ (s : State) (nbits w : Nat) (i : Instr), decodeTableWord nbits w = some i →
    step (s.withFetchWord nbits w) = exec i { s with halt := false, pkt := [] }

/-- The block run byte by byte over a whole packet is the command executed once, at its last byte (R28, R34): the byte
machine refines the command machine. -/
def Obligations.BytesRefineCommands : Prop :=
  ∀ (s : State) (i : Instr) (more : List HostEvent),
    i.WellFormed → s.halt = false → s.pkt = [] → s.input = bytesIn (encode i) ++ more →
    runSteps (encode i).length s = exec i { s with input := more }

/-- R117: a run of whole packets, sent as one stream of bytes, ends in the state and the responses of the commands
executed one after another. -/
def Obligations.StreamRefinesCommandSequence : Prop :=
  ∀ (s : State) (is : List Instr), (∀ i ∈ is, i.WellFormed) → PortIdle s →
    runSteps ((is.flatMap encode).length) (hostDoes (bytesIn (is.flatMap encode)) s) =
      execAll is s

/-- R34: "delivering the same bytes in pieces of any size gives the same state and the same responses". -/
def Obligations.DeliveryInPieces : Prop :=
  ∀ (s : State) (a b : List Byte), s.input = [] →
    runSteps (a.length + b.length) (hostDoes (bytesIn (a ++ b)) s) =
      Claims.andThen (runSteps a.length (hostDoes (bytesIn a) s))
        (fun t => runSteps b.length (hostDoes (bytesIn b) t))

/-- R113: an incomplete packet is a stuck port: the bytes sent are in `PKT`, nothing else has changed, and no step is
enabled until the host does more. -/
def Obligations.IncompletePacketWaits : Prop :=
  ∀ (s : State) (i : Instr) (q r : List Byte),
    i.WellFormed → PortIdle s → encode i = q ++ r → q ≠ [] → r ≠ [] →
    runSteps q.length (hostDoes (bytesIn q) s) = .next { s with pkt := q } ∧
    step { s with pkt := q } = .fault .incompletePacket ∧
    runSteps r.length (hostDoes (bytesIn r) { s with pkt := q }) = exec i s

/-- R101: between packets an illegal byte is a complete packet that fails with `E_ILLEGAL` and halts the block; inside
a packet no byte is examined as an opcode: it is never an illegal one, and the command it completes is that of the
packet's own first byte, with nothing left over to begin another; and the example of the rule. -/
def Obligations.IllegalOpcodeFails : Prop :=
  (∀ (s : State) (b : Byte) (more : List HostEvent),
    s.halt = false → s.pkt = [] → s.input = .byte b :: more → Claims.IllegalOpcode b →
    step s = .next { s with input := more, errFlags := s.errFlags ||| 0x01#8, halt := true,
                            output := s.output ++ [0x01#8] }) ∧
  (∀ (s : State) (b : Byte), s.Inv → s.pkt ≠ [] →
    (∀ rest, decode (s.pkt ++ [b]) ≠ .illegal rest) ∧
    (∀ i rest, decode (s.pkt ++ [b]) = .packet i rest → rest = [] ∧ (encode i).head? = s.pkt.head?)) ∧
  (∀ p : Params, ∃ t, runSteps 1 (hostDoes (bytesIn [0x09#8]) (State.resetWith p)) = .next t ∧
    t.output = [0x01#8])

/-- R102: `HALT <- 1` happens in exactly one case, an illegal opcode between packets, and saves nothing beyond
`F_ILLEGAL`: every other register and `BITS` keep their values. -/
def Obligations.HaltHasOneCause : Prop :=
  ∀ s t : State, s.Inv → step s = .next t → s.halt = false → t.halt = true →
    ∃ b more, s.input = .byte b :: more ∧ s.pkt = [] ∧ Claims.IllegalOpcode b ∧
      t = { s with input := more, errFlags := s.errFlags ||| 0x01#8, halt := true, output := s.output ++ [0x01#8] }

/-- R103: while `HALT = 1` bytes are discarded undecoded, with no response and no change, however many; with nothing
more from the host no step is enabled; only reset clears `HALT`, and it discards the filter. -/
def Obligations.HaltedBlockDiscards : Prop :=
  (∀ (s : State) (bytes : List Byte) (more : List HostEvent), s.halt = true → s.input = bytesIn bytes ++ more →
    runSteps bytes.length s = .next { s with input := more }) ∧
  (∀ s : State, s.halt = true → s.input = [] → step s = .fault .halted) ∧
  (∀ s t : State, step s = .next t → s.halt = true → t.halt = false →
    s.input.head? = some .reset ∧ t.bitCount = 0)

/-- When a step stops: only where the host has sent nothing more, under the name of what the block waits for (R103,
R109, R113), and never refused. -/
def Obligations.StepStopsOnlyWaiting : Prop :=
  ∀ s : State,
    (s.input ≠ [] → ∃ t, step s = .next t) ∧
    (s.input = [] → step s = .fault (if s.halt then .halted else if s.pkt = [] then .idle else .incompletePacket))

/-- R115: the block's behaviour never depends on the responses: with any earlier output the step does the same. -/
def Obligations.ResponsesAreNeverRead : Prop :=
  ∀ (s : State) (o : List Byte),
    step { s with output := o } =
      Claims.mapNext (fun t => { t with output := o ++ t.output }) (step { s with output := [] })

/-! ### Reset -/

/-- R22: the state after reset, every value the rule states. `BITS` is "unspecified, and unreachable until a successful
`CONFIG`": whatever it holds, every command on the filter or the array answers `E_NOCFG` and nothing else, `HASH` and
`RDREG` succeed, and a `CONFIG` that is legal and fits zeroes `BITS[0..NBYTES-1]`. -/
def Obligations.ResetValues : Prop :=
  ∀ p : Params,
    (State.resetWith p).bitCount = 0 ∧ (State.resetWith p).hashCount = 0 ∧
    (State.resetWith p).digest = Vector.replicate 16 0#8 ∧
    (State.resetWith p).bitIndex = 0 ∧ (State.resetWith p).byteIndex = 0 ∧ (State.resetWith p).mask = 0x00#8 ∧
    (State.resetWith p).result = false ∧ (State.resetWith p).probes = 0 ∧ (State.resetWith p).errFlags = 0x00#8 ∧
    (State.resetWith p).halt = false ∧ (State.resetWith p).pkt = [] ∧
    ∀ bits : Memory,
      (∀ i : Instr, ((∃ d, i = .index d) ∨ (∃ m, i = .insert m) ∨ (∃ m, i = .contains m) ∨
          (∃ a, i = .rdarr a) ∨ (∃ a d, i = .wrarr a d)) →
        exec i { State.resetWith p with bits := bits } =
          .next { State.resetWith p with bits := bits, errFlags := 0x02#8, output := [0x02#8] }) ∧
      (∀ (seed : Word32) (msg : List Byte), ∃ t,
        exec (.hash seed msg) { State.resetWith p with bits := bits } = .next t ∧
        t.output = 0x00#8 :: (murmur128 p.seedExt msg seed).toList ∧ t.bits = bits) ∧
      (∀ (regno : Byte) (r : Reg), regOf regno = some r →
        exec (.rdreg regno) { State.resetWith p with bits := bits } =
          .next { State.resetWith p with
            bits := bits, output := 0x00#8 :: bytesBe32 (regValue r (State.resetWith p)) }) ∧
      (∀ (hc : Word16) (bc : Word32), bc.msb = false → bc ≠ 0 → (bc.toNat + 7) / 8 ≤ p.arrayBytesMax →
        ∃ t, exec (.config hc bc) { State.resetWith p with bits := bits } = .next t ∧
          t.bitCount = bc ∧ t.hashCount = hc ∧ t.output = [0x00#8] ∧
          ∀ a, a < (bc.toNat + 7) / 8 → memRead a t = 0x00#8)

/-- R110: at any time, in the middle of a packet or halted, reset leaves the state of R22, drops the packet in
progress and sends no response. That `BITS`, unspecified by R22, is kept is the model's choice (log 3). -/
def Obligations.ResetAtAnyTime : Prop :=
  ∀ (s : State) (more : List HostEvent), s.input = .reset :: more →
    ∃ t, step s = .next t ∧
      t.bitCount = 0 ∧ t.hashCount = 0 ∧ t.digest = Vector.replicate 16 0#8 ∧ t.bitIndex = 0 ∧ t.byteIndex = 0 ∧
      t.mask = 0x00#8 ∧ t.result = false ∧ t.probes = 0 ∧ t.errFlags = 0x00#8 ∧ t.halt = false ∧ t.pkt = [] ∧
      t.params = s.params ∧ t.input = more ∧ t.output = s.output

/-- The invariant holds right after reset, for every block (R6, R13, R14, R16, R19, R20). -/
def Obligations.ResetHasInvariant : Prop :=
  (∀ p : Params, p.WellFormed → (State.resetWith p).Inv) ∧ State.reset.Inv

/-- Every step keeps the invariant: legal `BITCOUNT`, consistent index registers, `ERRFLAGS` bits 5 to 7 zero, `HALT`
exactly with `F_ILLEGAL`, `PKT` never a whole packet, `BITS` canonical and within its capacity. -/
def Obligations.StepKeepsInvariant : Prop :=
  ∀ s t : State, s.Inv → step s = .next t → t.Inv

/-! ### Failing, responses, who writes what -/

/-- R100 with the order of R105: a command fails exactly in the cases of the table; then only its sticky flag and the
one response byte; no command but an illegal opcode halts; a success sends status `00` and sets no flag. -/
def Obligations.FailuresArePrecise : Prop :=
  (∀ (i : Instr) (s : State) (e : Status), Claims.failureOf i s = some e →
    exec i s = .next { s with errFlags := s.errFlags ||| (1#8 <<< (statusCode e - 1#8)),
                              output := s.output ++ [statusCode e] }) ∧
  (∀ (i : Instr) (s : State), Claims.failureOf i s = none →
    ∃ t data, exec i s = .next t ∧ t.output = s.output ++ 0x00#8 :: data ∧ t.errFlags = s.errFlags ∧
      t.halt = s.halt)

/-- R39: every command gets exactly one response, appended to the stream: status `00` and the data the table gives the
command, or a status code `02` to `05` alone. -/
def Obligations.OneResponsePerCommand : Prop :=
  ∀ (i : Instr) (s : State), ∃ t, exec i s = .next t ∧
    ((∃ data, t.output = s.output ++ 0x00#8 :: data ∧ data.length = Claims.okDataLength i) ∨
     (∃ code : Byte, 0x02#8 ≤ code ∧ code ≤ 0x05#8 ∧ t.output = s.output ++ [code]))

/-- R16: no command clears a bit of `ERRFLAGS`; a step that clears one takes a reset. -/
def Obligations.ErrFlagsAreSticky : Prop :=
  ∀ s t : State, step s = .next t → s.input.head? ≠ some .reset → s.errFlags &&& t.errFlags = s.errFlags

/-- R14, R84: only a successful `CONFIG` writes `BITCOUNT` or `HASHCOUNT`: one that answers `00` writes both, one that
answers `03` neither, and no other command does; and no command sets `BITCOUNT` to 0. -/
def Obligations.OnlyConfigConfigures : Prop :=
  ∀ (i : Instr) (s t : State), exec i s = .next t →
    ((∀ hc bc, i ≠ .config hc bc) → t.bitCount = s.bitCount ∧ t.hashCount = s.hashCount) ∧
    (∀ hc bc, i = .config hc bc →
      (Claims.failureOf (.config hc bc) s = none ∧ t.output = s.output ++ [0x00#8] ∧
        t.bitCount = bc ∧ t.hashCount = hc ∧ bc ≠ 0) ∨
      (Claims.failureOf (.config hc bc) s = some .eCfg ∧ t.output = s.output ++ [0x03#8] ∧
        t.bitCount = s.bitCount ∧ t.hashCount = s.hashCount)) ∧
    (s.bitCount ≠ 0 → t.bitCount ≠ 0)

/-- R84: `HASH` and `RDREG` never fail with `E_NOCFG` whatever `BITCOUNT` is; `INDEX`, `INSERT`, `CONTAINS`, `RDARR`,
`WRARR` raise it exactly when `BITCOUNT = 0`. -/
def Obligations.WhoNeedsAFilter : Prop :=
  (∀ (s : State) (i : Instr), ((∃ d, i = .index d) ∨ (∃ m, i = .insert m) ∨ (∃ m, i = .contains m) ∨
      (∃ a, i = .rdarr a) ∨ (∃ a d, i = .wrarr a d)) →
    ((∃ t, exec i s = .next t ∧ t.output = s.output ++ [0x02#8]) ↔ s.bitCount = 0)) ∧
  (∀ (s t : State) (i : Instr), ((∃ seed m, i = .hash seed m) ∨ (∃ r, i = .rdreg r)) → exec i s = .next t →
    t.output ≠ s.output ++ [0x02#8])

/-- R15: `RESULT` is written by `CONTAINS` alone, `PROBES` by `INSERT` and `CONTAINS` alone, and by neither on
failure. -/
def Obligations.ResultAndProbesWriters : Prop :=
  ∀ (i : Instr) (s t : State), exec i s = .next t →
    ((∀ m, i ≠ .contains m) ∨ s.bitCount = 0 → t.result = s.result) ∧
    (((∀ m, i ≠ .contains m) ∧ (∀ m, i ≠ .insert m)) ∨ s.bitCount = 0 → t.probes = s.probes)

/-- R12: `DIGEST` is written by `HASH` and by probes only; R13: the index registers by `INDEX` and by probes only;
R19: `BITS` by `INSERT`, `CONFIG` and `WRARR` only. -/
def Obligations.RegisterWriters : Prop :=
  ∀ (i : Instr) (s t : State), exec i s = .next t →
    ((∀ m, i ≠ .insert m) → (∀ m, i ≠ .contains m) → (∀ seed m, i ≠ .hash seed m) → t.digest = s.digest) ∧
    ((∀ m, i ≠ .insert m) → (∀ m, i ≠ .contains m) → (∀ d, i ≠ .index d) →
      t.bitIndex = s.bitIndex ∧ t.byteIndex = s.byteIndex ∧ t.mask = s.mask) ∧
    ((∀ m, i ≠ .insert m) → (∀ hc bc, i ≠ .config hc bc) → (∀ a d, i ≠ .wrarr a d) →
      ∀ a, memRead a t = memRead a s)

/-- No command touches the port or the parameters, and no step, reset included, changes the parameters (R6, R20,
R21). -/
def Obligations.PortAndParametersUntouched : Prop :=
  (∀ (i : Instr) (s t : State), exec i s = .next t →
    t.pkt = s.pkt ∧ t.halt = s.halt ∧ t.input = s.input ∧ t.params = s.params) ∧
  (∀ s t : State, step s = .next t → t.params = s.params)

/-- R11: no rule reads a value an earlier evaluation left in `H1`, `H2`, `K1`, `K2`, `LEN`: whatever they hold, a
command does the same to everything else. -/
def Obligations.ScratchIsUnobservable : Prop :=
  ∀ (i : Instr) (s t : State) (r : HashRegs) (n : Nat), exec i s = .next t →
    ∃ t', exec i { s with hashRegs := r, freeIndex := n } = .next t' ∧
      t' = { t with hashRegs := t'.hashRegs, freeIndex := t'.freeIndex }

/-! ### The hash -/

/-- R58: `HASH` writes the digest of its message to `DIGEST` and sends it, in every state, configured or not, and
cannot fail; nothing else changes but the scratch registers; and the example of the rule. -/
def Obligations.HashCommand : Prop :=
  (∀ (seed : Word32) (msg : List Byte) (s : State), ∃ t, exec (.hash seed msg) s = .next t ∧
    t.digest = murmur128 s.params.seedExt msg seed ∧
    t.output = s.output ++ 0x00#8 :: (murmur128 s.params.seedExt msg seed).toList ∧
    t = { s with digest := t.digest, output := t.output, hashRegs := t.hashRegs, freeIndex := t.freeIndex } ∧
    ∀ a, memRead a t = memRead a s) ∧
  (∀ seed : Word32, (encode (.hash seed [])).length = 9) ∧
  encode (.hash 0 [0x43, 0x43, 0x42, 0x46]) =
    [0x01, 0x00, 0x00, 0x00, 0x00, 0x00, 0x00, 0x00, 0x04, 0x43, 0x43, 0x42, 0x46] ∧
  (∀ s : State, ∃ t, exec (.hash 0 [0x43, 0x43, 0x42, 0x46]) s = .next t ∧
    t.output = s.output ++ [0x00, 0x05, 0x0f, 0x8d, 0x3c, 0xcb, 0x4a, 0xdf, 0xae, 0xd5, 0x1c, 0x9c, 0xca, 0x61, 0x42,
      0x47, 0x96])

/-- Known digests of the algorithm (95_test_vectors.md sections 2.1 to 2.4): the three known from outside the source,
the smallest tail that mixes `K2` after a whole block, and a seed with bit 31 set under both extensions. -/
def Obligations.KnownDigests : Prop :=
  (murmur128 .zero [] 0).toList = List.replicate 16 0#8 ∧
  (murmur128 .zero [0x68, 0x65, 0x6c, 0x6c, 0x6f] 0).toList =
    [0x02, 0x9b, 0xbd, 0x41, 0xb3, 0xa7, 0xd8, 0xcb, 0x19, 0x1d, 0xae, 0x48, 0x6a, 0x90, 0x1e, 0x5b] ∧
  (murmur128 .zero ("The quick brown fox jumps over the lazy dog".toList.map (fun c => BitVec.ofNat 8 c.toNat))
    0).toList =
    [0x6c, 0x1b, 0x07, 0xbc, 0x7b, 0xbc, 0x4b, 0xe3, 0x47, 0x93, 0x9a, 0xc4, 0xa9, 0x3c, 0x43, 0x7a] ∧
  (murmur128 .zero (Claims.countingBytes 25) 0).toList =
    [0xcb, 0x82, 0xe9, 0x2e, 0xb5, 0x7c, 0xbe, 0x3b, 0xfc, 0x9f, 0xef, 0xbe, 0x33, 0x54, 0xd3, 0xa2] ∧
  (murmur128 .zero [0x61] 0x80000000).toList =
    [0x61, 0x99, 0x3f, 0xeb, 0xdc, 0x69, 0x19, 0xd6, 0xa9, 0x2b, 0xe2, 0x3e, 0xca, 0x47, 0xdc, 0xc7] ∧
  (murmur128 .sign [0x61] 0x80000000).toList =
    [0x4d, 0x6d, 0x62, 0xc1, 0x37, 0x33, 0x59, 0x95, 0xee, 0x18, 0x83, 0x20, 0xad, 0x2d, 0x7b, 0xbd]

/-- R51, R72: for every seed below `2^31`, so for every probe of every filter, `SEED_EXT` has no effect. -/
def Obligations.SeedExtensionOnlyAboveBit31 : Prop :=
  (∀ (msg : List Byte) (seed : Word32), seed.msb = false → murmur128 .zero msg seed = murmur128 .sign msg seed) ∧
  (∀ (msg : List Byte) (hc : Word16) (i : Nat), i < hc.toNat →
    murmur128 .zero msg (BitVec.ofNat 32 i) = murmur128 .sign msg (BitVec.ofNat 32 i))

/-- R53: the tail step is, in closed form, `K1` the first eight tail bytes and `K2` the rest, little-endian and padded
with zero bytes, `K2` mixed into `H2` for 9 bytes or more and `K1` into `H1` for one or more; nothing else of `H1`,
`H2`. -/
def Obligations.TailStepClosedForm : Prop :=
  ∀ (tail : List Byte) (r : HashRegs), tail.length ≤ 15 →
    (tailStep tail r).h1 =
      (if tail.length ≥ 1 then xor64 r.h1 (mixK1 (le64 (tail.take 8))) else r.h1) ∧
    (tailStep tail r).h2 =
      (if tail.length ≥ 9 then xor64 r.h2 (mixK2 (le64 (tail.drop 8))) else r.h2) ∧
    (tailStep tail r).len = r.len

/-- R59 (d): for 1 to 15 zero bytes the digest with seed 0 is the digest of the empty message with that number as
seed, a true collision across seeds; R59 (b): the digest of the empty message with seed 0 is all zero. -/
def Obligations.ZeroBytesCollideAcrossSeeds : Prop :=
  (∀ (ext : SeedExt) (n : Nat), 1 ≤ n → n ≤ 15 →
    murmur128 ext (List.replicate n 0#8) 0 = murmur128 ext [] (BitVec.ofNat 32 n)) ∧
  (∀ ext : SeedExt, murmur128 ext [] 0 = Vector.replicate 16 0#8)

/-! ### Bit addressing -/

/-- R60: the three outputs of `BitAddress`, their bounds, and the example of the rule. -/
def Obligations.BitAddressOutputs : Prop :=
  (∀ (d : Digest) (bc : Word32), 1 ≤ bc.toNat → bc.toNat ≤ 2 ^ 31 - 1 →
    (bitAddress d bc).bitIndex.toNat = beNat d.toList % bc.toNat ∧
    (bitAddress d bc).byteIndex.toNat = (bitAddress d bc).bitIndex.toNat / 8 ∧
    (bitAddress d bc).mask = 0x80#8 >>> ((bitAddress d bc).bitIndex.toNat % 8) ∧
    (bitAddress d bc).mask = 1#8 <<< (7 - (bitAddress d bc).bitIndex.toNat % 8) ∧
    (bitAddress d bc).bitIndex.toNat < bc.toNat ∧
    (bitAddress d bc).byteIndex.toNat ≤ (bc.toNat + 7) / 8 - 1 ∧
    (bitAddress d bc).byteIndex.toNat ≤ 2 ^ 28 - 1 ∧
    (bitAddress d bc).mask ∈ [0x80#8, 0x40#8, 0x20#8, 0x10#8, 0x08#8, 0x04#8, 0x02#8, 0x01#8]) ∧
  bitAddress #v[0x02, 0x9b, 0xbd, 0x41, 0xb3, 0xa7, 0xd8, 0xcb, 0x19, 0x1d, 0xae, 0x48, 0x6a, 0x90, 0x1e, 0x5b] 9585 =
    { bitIndex := 9002, byteIndex := 1125, mask := 0x20 }

/-- R61: the integer `V` is the big-endian value of the sixteen bytes, below `2^128`; for a digest it is the two
accumulators with their bytes reversed (R24); all zero bytes address bit 0 for every `bitCount`, all `0xFF` with
`2^31 - 1` address bit 15. -/
def Obligations.DigestIntegerValue : Prop :=
  (∀ d : Digest, beNat d.toList = ∑ j : Fin 16, (d[j]).toNat * 256 ^ (15 - j.val) ∧ beNat d.toList < 2 ^ 128) ∧
  (∀ r : HashRegs, beNat (hashOutput r).toList =
    beNat (bytesLe64 r.h1) * 2 ^ 64 + beNat (bytesLe64 r.h2)) ∧
  (∀ bc : Word32, 1 ≤ bc.toNat → bc.toNat ≤ 2 ^ 31 - 1 →
    bitAddress (Vector.replicate 16 0#8) bc = { bitIndex := 0, byteIndex := 0, mask := 0x80 }) ∧
  bitAddress Claims.allOnes 2147483647 = { bitIndex := 15, byteIndex := 1, mask := 0x01 }

/-- R62: filter bit `i` is the bit of weight `2^(7 - (i mod 8))` of `BITS[i div 8]`, the one `maskOf i` selects. -/
def Obligations.MostSignificantBitFirst : Prop :=
  (∀ (byte : Byte) (i : Nat), selectsBit byte (maskOf i) = byte.getLsbD (7 - i % 8)) ∧
  (∀ i : Nat, (maskOf i).toNat = 2 ^ (7 - i % 8)) ∧
  (∀ (s : State) (d : Digest), s.bitCount ≠ 0 →
    selectsBit (memRead (bitAddress d s.bitCount).byteIndex.toNat s) (bitAddress d s.bitCount).mask =
      filterBit s (beNat d.toList % s.bitCount.toNat)) ∧
  maskOf 11 = 0x10#8 ∧ 11 / 8 = 1

/-- R63: the routine without 128-bit arithmetic equals `V mod bitCount` for every digest and every legal `bitCount`,
and what it reduces always fits 39 bits. -/
def Obligations.HornerEqualsExactReduction : Prop :=
  (∀ (d : Digest) (bc : Nat), 1 ≤ bc → bc ≤ 2 ^ 31 - 1 → hornerIndex d bc = beNat d.toList % bc) ∧
  (∀ (d : Digest) (bc j : Nat) (x : Byte), 1 ≤ bc → bc ≤ 2 ^ 31 - 1 → j ≤ 16 →
    (d.toList.take j).foldl (hornerStep bc) 0 * 256 + x.toNat < 2 ^ 39)

/-- R64: `INDEX` on a configured block writes the three index registers and answers the bit index; on a block with no
filter it raises `E_NOCFG`; and the example of the rule. -/
def Obligations.IndexCommand : Prop :=
  (∀ (d : Digest) (s : State), s.bitCount ≠ 0 →
    exec (.index d) s = .next { s with
      bitIndex := (bitAddress d s.bitCount).bitIndex
      byteIndex := (bitAddress d s.bitCount).byteIndex
      mask := (bitAddress d s.bitCount).mask
      output := s.output ++ 0x00#8 :: bytesBe32 (bitAddress d s.bitCount).bitIndex }) ∧
  (∀ (d : Digest) (s : State), s.bitCount = 0 →
    exec (.index d) s = .next { s with errFlags := s.errFlags ||| 0x02#8, output := s.output ++ [0x02#8] }) ∧
  encode (.index #v[0x05, 0x0f, 0x8d, 0x3c, 0xcb, 0x4a, 0xdf, 0xae, 0xd5, 0x1c, 0x9c, 0xca, 0x61, 0x42, 0x47, 0x96]) =
    [0x02, 0x05, 0x0f, 0x8d, 0x3c, 0xcb, 0x4a, 0xdf, 0xae, 0xd5, 0x1c, 0x9c, 0xca, 0x61, 0x42, 0x47, 0x96] ∧
  (∀ s : State, s.bitCount = 9585 → ∃ t,
    exec (.index #v[0x05, 0x0f, 0x8d, 0x3c, 0xcb, 0x4a, 0xdf, 0xae, 0xd5, 0x1c, 0x9c, 0xca, 0x61, 0x42, 0x47, 0x96]) s
      = .next t ∧
    t.output = s.output ++ [0x00, 0x00, 0x00, 0x1f, 0xc5] ∧ t.byteIndex = 1016 ∧ t.mask = 0x04#8)

/-! ### Set and test -/

/-- R70: `INSERT` on a configured block or-s the masks of its probes, seeds 0 to `HASHCOUNT - 1`, into the bytes they
address and changes no other byte; the registers keep the last probe's values, or are untouched without a probe;
unconfigured it raises `E_NOCFG`. -/
def Obligations.InsertCommand : Prop :=
  (∀ (msg : List Byte) (s : State), s.bits.wf → s.bitCount ≠ 0 → ∃ t, exec (.insert msg) s = .next t ∧
    (∀ a, memRead a t = insertedByte s.params s.bitCount msg s.hashCount.toNat a (memRead a s)) ∧
    (∀ a, (∀ i, i < s.hashCount.toNat → (probeAddr s.params s.bitCount msg i).byteIndex.toNat ≠ a) →
      memRead a t = memRead a s) ∧
    t.probes = s.hashCount ∧ t.output = s.output ++ [0x00#8] ∧
    (s.hashCount = 0 → Claims.NoProbe s t) ∧
    (s.hashCount ≠ 0 → Claims.LastProbe t msg (s.hashCount.toNat - 1)) ∧
    t = { s with bits := t.bits, probes := t.probes, digest := t.digest, bitIndex := t.bitIndex,
                 byteIndex := t.byteIndex, mask := t.mask, hashRegs := t.hashRegs, freeIndex := t.freeIndex,
                 output := t.output }) ∧
  (∀ (msg : List Byte) (s : State), s.bitCount = 0 →
    exec (.insert msg) s = .next { s with errFlags := s.errFlags ||| 0x02#8, output := s.output ++ [0x02#8] })

/-- R71: `CONTAINS` on a configured block answers whether every probe's bit is set, stops at the first unset one, and
counts the probes made; it writes no byte of `BITS`; unconfigured it raises `E_NOCFG`. -/
def Obligations.ContainsCommand : Prop :=
  (∀ (msg : List Byte) (s : State), s.bitCount ≠ 0 → ∃ t, exec (.contains msg) s = .next t ∧
    ((Remembers s msg ∧ t.result = true ∧ t.output = s.output ++ [0x00#8, 0x01#8] ∧ t.probes = s.hashCount ∧
        (s.hashCount = 0 → Claims.NoProbe s t) ∧
        (s.hashCount ≠ 0 → Claims.LastProbe t msg (s.hashCount.toNat - 1))) ∨
     (∃ k, k < s.hashCount.toNat ∧ probeSet s msg k = false ∧ (∀ j, j < k → probeSet s msg j = true) ∧
        t.result = false ∧ t.output = s.output ++ [0x00#8, 0x00#8] ∧ t.probes.toNat = k + 1 ∧
        Claims.LastProbe t msg k)) ∧
    t = { s with result := t.result, probes := t.probes, digest := t.digest, bitIndex := t.bitIndex,
                 byteIndex := t.byteIndex, mask := t.mask, hashRegs := t.hashRegs, freeIndex := t.freeIndex,
                 output := t.output } ∧
    ∀ a, memRead a t = memRead a s) ∧
  (∀ (msg : List Byte) (s : State), s.bitCount = 0 →
    exec (.contains msg) s = .next { s with errFlags := s.errFlags ||| 0x02#8, output := s.output ++ [0x02#8] })

/-- R73: after a successful `INSERT e`, every later `CONTAINS e` answers 1 for as long as no successful `CONFIG`, no
`WRARR` that clears one of `e`'s bits, and no reset intervenes, whatever other commands do. -/
def Obligations.NoFalseNegatives : Prop :=
  ∀ (s t u : State) (e : List Byte) (is : List Instr), s.Inv → s.bitCount ≠ 0 →
    exec (.insert e) s = .next t → (∀ i ∈ is, Claims.SparesElement s e i) → execAll is t = .next u →
    ∃ v, exec (.contains e) u = .next v ∧ v.result = true ∧ v.output = u.output ++ [0x00#8, 0x01#8]

/-- R74: the final `BITS` after a sequence of insertions is the starting `BITS` or-ed with the masks of all probes of all
elements; the order, and the number of repetitions, matter neither to it nor to any later `CONTAINS`. -/
def Obligations.InsertionOrderIndependence : Prop :=
  ∀ (s t t' : State) (es es' : List (List Byte)), s.Inv → s.bitCount ≠ 0 → (∀ e, e ∈ es ↔ e ∈ es') →
    execAll (es.map .insert) s = .next t → execAll (es'.map .insert) s = .next t' →
    (∀ a, memRead a t =
      es.foldl (fun v e => insertedByte s.params s.bitCount e s.hashCount.toNat a v) (memRead a s)) ∧
    t.bits = t'.bits ∧
    ∀ (q : List Byte) (u u' : State), exec (.contains q) t = .next u → exec (.contains q) t' = .next u' →
      u.result = u'.result

/-- R75: without a successful `CONFIG` and without `WRARR` nothing turns a 1 of `BITS` into a 0, so a `CONTAINS` answer
of 1 stays 1. -/
def Obligations.ContentIsMonotonic : Prop :=
  ∀ (s t : State) (is : List Instr), s.Inv → (∀ i ∈ is, Claims.LeavesOnes s.params i) → execAll is s = .next t →
    (∀ a, memRead a s &&& memRead a t = memRead a s) ∧
    (∀ (q : List Byte) (u : State), s.bitCount ≠ 0 → exec (.contains q) s = .next u → u.result = true →
      ∃ v, exec (.contains q) t = .next v ∧ v.result = true)

/-- R77: with `HASHCOUNT = 0`, `INSERT` changes no byte and `CONTAINS` answers true for every message, both with
`PROBES = 0`; and the example of the rule, from reset. -/
def Obligations.ZeroHashCount : Prop :=
  (∀ (msg : List Byte) (s : State), s.bitCount ≠ 0 → s.hashCount = 0 →
    exec (.insert msg) s = .next { s with probes := 0, output := s.output ++ [0x00#8] } ∧
    exec (.contains msg) s = .next { s with result := true, probes := 0, output := s.output ++ [0x00#8, 0x01#8] }) ∧
  (∀ p : Params, p.WellFormed → ∃ t,
    execAll [.config 0 8, .insert [0x78], .rdarr 0, .contains [0x79]] (State.resetWith p) = .next t ∧
    t.output = [0x00, 0x00, 0x00, 0x00, 0x00, 0x01] ∧ t.probes = 0)

/-- R19: `INSERT` never sets a padding bit, nor any bit at or above `BITCOUNT`; every bit it changes is below. -/
def Obligations.InsertLeavesPadding : Prop :=
  ∀ (s t : State) (msg : List Byte) (i : Nat), s.Inv → s.bitCount ≠ 0 → exec (.insert msg) s = .next t →
    s.bitCount.toNat ≤ i → filterBit t i = filterBit s i

/-- R19, R78: `CONTAINS` depends only on `HASHCOUNT`, `BITCOUNT` and the filter bits below `BITCOUNT`: neither padding
nor bytes above `NBYTES` nor the block's parameters matter. -/
def Obligations.ContainsReadsOnlyFilterBits : Prop :=
  ∀ (s s' t t' : State) (msg : List Byte), s.Inv → s'.Inv → s.bitCount ≠ 0 →
    s'.bitCount = s.bitCount → s'.hashCount = s.hashCount →
    (∀ i, i < s.bitCount.toNat → filterBit s' i = filterBit s i) →
    exec (.contains msg) s = .next t → exec (.contains msg) s' = .next t' →
    t'.result = t.result ∧ t'.probes = t.probes ∧ t'.bitIndex = (if s.hashCount = 0 then s'.bitIndex else t.bitIndex)

/-! ### Configuration, array, registers -/

/-- R80: `CONFIG` with a legal `bitCount` that fits starts a new empty filter: every byte below `NBYTES` is 0, every
other byte and register as before; any other `bitCount` raises `E_CFG`; and the examples of the rule. -/
def Obligations.ConfigCommand : Prop :=
  (∀ (hc : Word16) (bc : Word32) (s : State), bc.msb = false → bc ≠ 0 →
    (bc.toNat + 7) / 8 ≤ s.params.arrayBytesMax → ∃ t, exec (.config hc bc) s = .next t ∧
    (∀ a, memRead a t = if a < (bc.toNat + 7) / 8 then 0x00#8 else memRead a s) ∧
    t = { s with hashCount := hc, bitCount := bc, bits := t.bits, output := s.output ++ [0x00#8] }) ∧
  (∀ (hc : Word16) (bc : Word32) (s : State),
    bc.msb = true ∨ bc = 0 ∨ s.params.arrayBytesMax < (bc.toNat + 7) / 8 →
    exec (.config hc bc) s = .next { s with errFlags := s.errFlags ||| 0x04#8, output := s.output ++ [0x03#8] }) ∧
  encode (.config 6 9585) = [0x05, 0x00, 0x06, 0x00, 0x00, 0x25, 0x71] ∧
  arrayBytes 9585 = 1199 ∧ arrayBytes 1 = 1 ∧ arrayBytes 2147483647 = 2 ^ 28

/-- R81: `RDARR` on a configured block returns the byte as stored below `NBYTES` and raises `E_ADDR` at or above it;
unconfigured it raises `E_NOCFG` first; and the example of the rule. -/
def Obligations.RdarrCommand : Prop :=
  (∀ (addr : Word32) (s : State), s.bitCount ≠ 0 → addr.toNat < (s.bitCount.toNat + 7) / 8 →
    exec (.rdarr addr) s = .next { s with output := s.output ++ [0x00#8, memRead addr.toNat s] }) ∧
  (∀ (addr : Word32) (s : State), s.bitCount ≠ 0 → (s.bitCount.toNat + 7) / 8 ≤ addr.toNat →
    exec (.rdarr addr) s = .next { s with errFlags := s.errFlags ||| 0x08#8, output := s.output ++ [0x04#8] }) ∧
  (∀ (addr : Word32) (s : State), s.bitCount = 0 →
    exec (.rdarr addr) s = .next { s with errFlags := s.errFlags ||| 0x02#8, output := s.output ++ [0x02#8] }) ∧
  (∀ s : State, s.bitCount = 16 → s.bits = [(0, 0x12#8), (1, 0x70#8)] →
    (∃ t, exec (.rdarr 1) s = .next t ∧ t.output = s.output ++ [0x00#8, 0x70#8]) ∧
    (∃ t, exec (.rdarr 2) s = .next t ∧ t.output = s.output ++ [0x04#8]))

/-- R82: `WRARR` on a configured block replaces the whole byte at an address below `NBYTES`, every other byte as
before, and raises `E_ADDR` at or above it; unconfigured it raises `E_NOCFG` first. -/
def Obligations.WrarrCommand : Prop :=
  (∀ (addr : Word32) (data : Byte) (s : State), s.bits.wf → s.bitCount ≠ 0 →
    addr.toNat < (s.bitCount.toNat + 7) / 8 → ∃ t, exec (.wrarr addr data) s = .next t ∧
    (∀ a, memRead a t = if a = addr.toNat then data else memRead a s) ∧
    t = { s with bits := t.bits, output := s.output ++ [0x00#8] }) ∧
  (∀ (addr : Word32) (data : Byte) (s : State), s.bitCount ≠ 0 → (s.bitCount.toNat + 7) / 8 ≤ addr.toNat →
    exec (.wrarr addr data) s = .next { s with errFlags := s.errFlags ||| 0x08#8, output := s.output ++ [0x04#8] }) ∧
  (∀ (addr : Word32) (data : Byte) (s : State), s.bitCount = 0 →
    exec (.wrarr addr data) s = .next { s with errFlags := s.errFlags ||| 0x02#8, output := s.output ++ [0x02#8] })

/-- R83 with the register map of R18: `RDREG` answers the register's 32 bits, changes nothing else, in every state,
and raises `E_REG` for a reserved number. -/
def Obligations.RdregCommand : Prop :=
  (∀ (regno : Byte) (s : State), regno ≠ 0x07#8 → regno.toNat < 0x0C → ∃ r, regOf regno = some r ∧
    exec (.rdreg regno) s = .next { s with output := s.output ++ 0x00#8 :: bytesBe32 (regValue r s) }) ∧
  (∀ (regno : Byte) (s : State), regno = 0x07#8 ∨ 0x0C ≤ regno.toNat →
    exec (.rdreg regno) s = .next { s with errFlags := s.errFlags ||| 0x10#8, output := s.output ++ [0x05#8] }) ∧
  (∀ p : Params, ∃ t, exec (.rdreg 0x00) (State.resetWith p) = .next t ∧ t.output = [0x00, 0x00, 0x00, 0x00, 0x00]) ∧
  (∀ s : State, s.bitCount = 9585 → ∃ t, exec (.rdreg 0x03) s = .next t ∧
    t.output = s.output ++ [0x00, 0x00, 0x00, 0x04, 0xaf])

/-- R18: the value of every register number, the fields of `STATUS` bit by bit, and that `F_ILLEGAL` can never be read
as 1 on a block that is not halted. -/
def Obligations.RegisterMap : Prop :=
  ∀ s : State,
    (regOf 0x00#8 = some .status ∧ regOf 0x01#8 = some .bitcount ∧ regOf 0x02#8 = some .hashcount ∧
      regOf 0x03#8 = some .nbytes ∧ regOf 0x04#8 = some .bitindex ∧ regOf 0x05#8 = some .byteindex ∧
      regOf 0x06#8 = some .mask ∧ regOf 0x08#8 = some .digest0 ∧ regOf 0x09#8 = some .digest1 ∧
      regOf 0x0A#8 = some .digest2 ∧ regOf 0x0B#8 = some .digest3 ∧
      ∀ n : Byte, regOf n = none ↔ n = 0x07#8 ∨ 0x0C#8 ≤ n) ∧
    (regValue .bitcount s = s.bitCount ∧ (regValue .hashcount s).toNat = s.hashCount.toNat ∧
      (regValue .nbytes s).toNat = (s.bitCount.toNat + 7) / 8 ∧ regValue .bitindex s = s.bitIndex ∧
      regValue .byteindex s = s.byteIndex ∧ (regValue .mask s).toNat = s.mask.toNat ∧
      beNat s.digest.toList = (regValue .digest0 s).toNat * 2 ^ 96 + (regValue .digest1 s).toNat * 2 ^ 64 +
        (regValue .digest2 s).toNat * 2 ^ 32 + (regValue .digest3 s).toNat) ∧
    ((regValue .status s).getLsbD 0 = s.result ∧
      (regValue .status s).getLsbD 1 = decide (s.bitCount ≠ 0) ∧
      (∀ k, 2 ≤ k → k ≤ 7 → (regValue .status s).getLsbD k = false) ∧
      (∀ k, k < 8 → (regValue .status s).getLsbD (8 + k) = s.errFlags.getLsbD k) ∧
      (∀ k, k < 16 → (regValue .status s).getLsbD (16 + k) = s.probes.getLsbD k)) ∧
    (s.Inv → s.halt = false → (regValue .status s).getLsbD 8 = false) ∧
    (s.Inv → ∀ k, 13 ≤ k → k ≤ 15 → (regValue .status s).getLsbD k = false)

/-! ### Host procedures -/

/-- R65: `HASHIDX` on a configured, idle block leaves in `DIGEST` and the index registers what probe number `seed`
computes, and `BITS` untouched; without a filter it fails with `E_NOCFG` at its second packet. -/
def Obligations.HashIdxIsOneProbe : Prop :=
  ∀ (seed : Word32) (msg : List Byte) (s : State), MessageFits msg → PortIdle s → ∃ t r,
    hostHashIdx seed msg s = some (t, r) ∧ t.bits = s.bits ∧ t.digest = murmur128 s.params.seedExt msg seed ∧
    (s.bitCount ≠ 0 → Claims.LastProbe t msg seed.toNat ∧ r = 0x00#8 :: bytesBe32 t.bitIndex) ∧
    (s.bitCount = 0 → r = [0x02#8])

/-- R93: the layout of an image, byte for byte: magic, version, the operand bytes of `CONFIG`, then the array; its
size; and the checks of `LOAD` accept what was written and give it back. -/
def Obligations.ImageLayout : Prop :=
  (∀ m : Image,
    (imageBytes m).take 6 = [0x43, 0x43, 0x42, 0x46, 0x00, 0x01] ∧
    ((imageBytes m).drop 6).take 6 = (encode (.config m.hashCount m.bitCount)).drop 1 ∧
    (imageBytes m).drop 12 = m.array ∧ (imageBytes m).length = 12 + m.array.length) ∧
  (∀ m : Image, m.bitCount.msb = false → m.bitCount ≠ 0 → m.array.length = (m.bitCount.toNat + 7) / 8 →
    checkImage (imageBytes m) = .ok m) ∧
  imageBytes { hashCount := 3, bitCount := 16, array := [0x12, 0x70] } =
    [0x43, 0x43, 0x42, 0x46, 0x00, 0x01, 0x00, 0x03, 0x00, 0x00, 0x00, 0x10, 0x12, 0x70]

/-- R94: `SAVE` of an idle, configured block writes the image of its filter; "if bc = 0 there is no filter to save", and
none is written; in both cases it changes nothing in the block. -/
def Obligations.SaveWritesTheFilter : Prop :=
  (∀ s : State, s.Inv → PortIdle s → s.bitCount ≠ 0 → ∃ t,
    hostSave s = some (t, some (imageBytes (Image.mk s.hashCount s.bitCount
      ((List.range ((s.bitCount.toNat + 7) / 8)).map (fun a => memRead a s))))) ∧
    t = { s with output := t.output }) ∧
  (∀ s : State, PortIdle s → s.bitCount = 0 → ∃ t, hostSave s = some (t, none) ∧ t = { s with output := t.output })

/-- R95: a stream `LOAD` refuses, for its length, magic, version, `bitCount` or size, leaves the block untouched, and the
version error carries the version; one that passes every check but does not fit this block fails in `CONFIG`, is reported
as `InvalidFormat`, and leaves the filter as it was, with `F_CFG` set. -/
def Obligations.LoadRefusesBadImages : Prop :=
  (∀ (img : List Byte) (s : State),
    img.length < 12 ∨ img.take 4 ≠ [0x43, 0x43, 0x42, 0x46] → hostLoad img s = some (s, .error .invalidFormat)) ∧
  (∀ (img : List Byte) (s : State), 12 ≤ img.length → img.take 4 = [0x43, 0x43, 0x42, 0x46] →
    be16 ((img.drop 4).take 2) ≠ 1 →
    hostLoad img s = some (s, .error (.unsupportedVersion (be16 ((img.drop 4).take 2))))) ∧
  (∀ (img : List Byte) (s : State), 12 ≤ img.length → img.take 6 = [0x43, 0x43, 0x42, 0x46, 0x00, 0x01] →
    ((be32 ((img.drop 8).take 4)).msb = true ∨ be32 ((img.drop 8).take 4) = 0 ∨
      img.length ≠ 12 + ((be32 ((img.drop 8).take 4)).toNat + 7) / 8) →
    hostLoad img s = some (s, .error .invalidFormat)) ∧
  (∀ (img : List Byte) (s : State), img.take 6 = [0x43, 0x43, 0x42, 0x46, 0x00, 0x01] →
    (be32 ((img.drop 8).take 4)).msb = false → be32 ((img.drop 8).take 4) ≠ 0 →
    img.length = 12 + ((be32 ((img.drop 8).take 4)).toNat + 7) / 8 →
    s.params.arrayBytesMax < ((be32 ((img.drop 8).take 4)).toNat + 7) / 8 → PortIdle s →
    hostLoad img s = some ({ s with errFlags := s.errFlags ||| 0x04#8, output := s.output ++ [0x03#8] },
      .error .invalidFormat))

/-- R96: `SAVE` of an idle, configured block and `LOAD` of the image into any idle block of sufficient capacity give
that block the same `HASHCOUNT`, `BITCOUNT` and array bytes, and so the same `CONTAINS` answers; the registers no image
carries are not restored. -/
def Obligations.SaveLoadRoundTrip : Prop :=
  ∀ s u : State, s.Inv → PortIdle s → s.bitCount ≠ 0 → u.Inv → PortIdle u →
    (s.bitCount.toNat + 7) / 8 ≤ u.params.arrayBytesMax → ∃ t img v,
    hostSave s = some (t, some img) ∧ hostLoad img u = some (v, .ok ()) ∧
    v.hashCount = s.hashCount ∧ v.bitCount = s.bitCount ∧
    (∀ a, a < (s.bitCount.toNat + 7) / 8 → memRead a v = memRead a s) ∧
    (∀ (q : List Byte) (x y : State),
      exec (.contains q) s = .next x → exec (.contains q) v = .next y → y.result = x.result) ∧
    v.digest = u.digest ∧ v.bitIndex = u.bitIndex ∧ v.byteIndex = u.byteIndex ∧ v.mask = u.mask ∧
    v.result = u.result ∧ v.probes = u.probes ∧ v.errFlags = u.errFlags

/-- R90, R92: a false-positive rate outside `(0, 1)` is refused before any packet, whatever the sizing arithmetic; sizes
in range are sent in one `CONFIG`, whose `E_CFG` is reported as `InvalidParameter`. The second clause, that sizes no
filter can have are refused before any packet, is the model's reading (log 15, from 95_test_vectors.md section 2.7,
"none: rule R92, `InvalidParameter` (the block would answer `03`)"): by R91 and R92 a `bitCount` out of range could
also be sent, and make `CONFIG` raise `E_CFG`. -/
def Obligations.NewFilterChecksParameters : Prop :=
  (∀ (ar : HostArith) (n : Int) (ε : Rat) (s : State), ε ≤ 0 ∨ 1 ≤ ε →
    hostNewFilter ar n ε s = some (s, .error .invalidParameter)) ∧
  (∀ (ar : HostArith) (n : Int) (ε : Rat) (s : State),
    sizedBitCount ar n ε < 1 ∨ 2 ^ 31 - 1 < sizedBitCount ar n ε ∨ sizedHashCount ar ε < 0 ∨
      65535 < sizedHashCount ar ε →
    hostNewFilter ar n ε s = some (s, .error .invalidParameter)) ∧
  (∀ (ar : HostArith) (n : Int) (ε : Rat) (s : State) (bc hc : Nat),
    0 < ε → ε < 1 → sizedBitCount ar n ε = bc → sizedHashCount ar ε = hc → 1 ≤ bc → bc ≤ 2 ^ 31 - 1 → hc ≤ 65535 →
    PortIdle s →
    ((bc + 7) / 8 ≤ s.params.arrayBytesMax → ∃ t, hostNewFilter ar n ε s = some (t, .ok ()) ∧
      t.bitCount.toNat = bc ∧ t.hashCount.toNat = hc ∧ ∀ a, a < (bc + 7) / 8 → memRead a t = 0x00#8) ∧
    (s.params.arrayBytesMax < (bc + 7) / 8 →
      hostNewFilter ar n ε s = some ({ s with errFlags := s.errFlags ||| 0x04#8, output := s.output ++ [0x03#8] },
        .error .invalidParameter)))

/-- R91: `NEWFILTER` is `CONFIG` with the values of the two formulas. In exact arithmetic, for every argument; and the
rows of the rule's table, in every arithmetic whose quotients are within 1/100 of the exact ones (row `epsilon = 0.5`:
in one that is exact there); a block with room is then configured so, and empty. The row `elementCount = 0` sends no
packet in the model's reading (log 15, 95_test_vectors.md section 2.7). -/
def Obligations.NewFilterFollowsTheFormulas : Prop :=
  (∀ (n : Int) (ε : Rat) (bc hc : Nat) (s : State), 0 < ε → ε < 1 → SizingFormula n ε bc hc →
    1 ≤ bc → bc ≤ 2 ^ 31 - 1 → hc ≤ 65535 →
    hostNewFilter realArith n ε s = hostConfig (BitVec.ofNat 16 hc) (BitVec.ofNat 32 bc) .invalidParameter s) ∧
  (∀ (ar : HostArith) (s : State),
    (SizesWithin (1 / 100) ar 1000 (1 / 100) →
      hostNewFilter ar 1000 (1 / 100) s = hostConfig 6 9585 .invalidParameter s) ∧
    (SizesWithin 0 ar 1000 (1 / 2) → hostNewFilter ar 1000 (1 / 2) s = hostConfig 1 1442 .invalidParameter s) ∧
    (SizesWithin (1 / 100) ar 1000 (3 / 5) →
      hostNewFilter ar 1000 (3 / 5) s = hostConfig 0 1063 .invalidParameter s) ∧
    (SizesWithin (1 / 100) ar 0 (1 / 100) →
      hostNewFilter ar 0 (1 / 100) s = some (s, .error .invalidParameter)) ∧
    (SizesWithin (1 / 100) ar 100 (1 / 1000) →
      hostNewFilter ar 100 (1 / 1000) s = hostConfig 9 1437 .invalidParameter s) ∧
    (SizesWithin (1 / 100) ar 1000 (1 / 100) → PortIdle s → 1199 ≤ s.params.arrayBytesMax →
      ∃ t, hostNewFilter ar 1000 (1 / 100) s = some (t, .ok ()) ∧ t.hashCount = 6 ∧ t.bitCount = 9585 ∧
        nbytes t = 1199 ∧ t.output = s.output ++ [0x00#8] ∧ ∀ a, a < 1199 → memRead a t = 0x00#8))
end

