-- ==== Sys2Proof/Laws/Bytes.lean ====
section
/-! SUPPORT. Byte orders undo each other, and how long their results are. -/

namespace Sys2Proof.Machine

@[simp] theorem beNat_nil : beNat [] = 0 := rfl

theorem beNat_foldl (b : List Byte) (k : Nat) :
    b.foldl (fun acc x => acc * 256 + x.toNat) k = k * 256 ^ b.length + beNat b := by
  induction b generalizing k with
  | nil => simp
  | cons x b ih =>
    simp only [List.foldl_cons, List.length_cons, beNat]
    rw [ih, ih (0 * 256 + x.toNat)]
    simp only [beNat, Nat.zero_mul, Nat.zero_add, pow_succ]
    ring

theorem beNat_cons (x : Byte) (b : List Byte) : beNat (x :: b) = x.toNat * 256 ^ b.length + beNat b := by
  have h := beNat_foldl b x.toNat
  simpa [beNat] using h

theorem beNat_append (a b : List Byte) : beNat (a ++ b) = beNat a * 256 ^ b.length + beNat b := by
  rw [beNat, List.foldl_append]
  exact beNat_foldl b (beNat a)

theorem beNat_lt (b : List Byte) : beNat b < 256 ^ b.length := by
  induction b with
  | nil => simp
  | cons x b ih =>
    rw [beNat_cons, List.length_cons, pow_succ]
    have := x.isLt
    nlinarith [Nat.mul_le_mul_right (256 ^ b.length) (Nat.le_of_lt_succ this)]

@[simp] theorem bytesBe16_length (v : Word16) : (bytesBe16 v).length = 2 := rfl
@[simp] theorem bytesBe32_length (v : Word32) : (bytesBe32 v).length = 4 := rfl
@[simp] theorem bytesLe64_length (v : Word64) : (bytesLe64 v).length = 8 := rfl

theorem beNat_bytesBe16 (v : Word16) : beNat (bytesBe16 v) = v.toNat := by
  have := v.isLt
  simp only [beNat, bytesBe16, List.foldl_cons, List.foldl_nil, BitVec.extractLsb'_toNat, Nat.shiftRight_eq_div_pow]
  omega

theorem beNat_bytesBe32 (v : Word32) : beNat (bytesBe32 v) = v.toNat := by
  have := v.isLt
  simp only [beNat, bytesBe32, List.foldl_cons, List.foldl_nil, BitVec.extractLsb'_toNat, Nat.shiftRight_eq_div_pow]
  omega

@[simp] theorem be16_bytesBe16 (v : Word16) : be16 (bytesBe16 v) = v := by
  simp [be16, beNat_bytesBe16]

@[simp] theorem be32_bytesBe32 (v : Word32) : be32 (bytesBe32 v) = v := by
  simp [be32, beNat_bytesBe32]

theorem leNat_eq_beNat_reverse (b : List Byte) : leNat b = beNat b.reverse := by
  induction b with
  | nil => rfl
  | cons x b ih => simp [leNat, ih, beNat_append, beNat_cons]; ring

theorem leNat_bytesLe64 (v : Word64) : leNat (bytesLe64 v) = v.toNat := by
  have := v.isLt
  simp only [leNat, bytesLe64, BitVec.extractLsb'_toNat, Nat.shiftRight_eq_div_pow]
  omega

@[simp] theorem le64_bytesLe64 (v : Word64) : le64 (bytesLe64 v) = v := by
  simp [le64, leNat_bytesLe64]

/-- Two bytes are `bytes_be16` of what they read as. -/
theorem bytesBe16_be16 (b : List Byte) (h : b.length = 2) : bytesBe16 (be16 b) = b := by
  obtain ⟨x, y, rfl⟩ : ∃ x y, b = [x, y] := by
    match b, h with
    | [x, y], _ => exact ⟨x, y, rfl⟩
  have hx := x.isLt
  have hy := y.isLt
  simp only [bytesBe16, be16, beNat, List.foldl_cons, List.foldl_nil, List.cons.injEq, and_true]
  refine ⟨?_, ?_⟩ <;> apply BitVec.eq_of_toNat_eq <;>
    simp only [BitVec.extractLsb'_toNat, BitVec.toNat_ofNat, Nat.shiftRight_eq_div_pow] <;> omega

/-- Four bytes are `bytes_be32` of what they read as. -/
theorem bytesBe32_be32 (b : List Byte) (h : b.length = 4) : bytesBe32 (be32 b) = b := by
  obtain ⟨x, y, z, w, rfl⟩ : ∃ x y z w, b = [x, y, z, w] := by
    match b, h with
    | [x, y, z, w], _ => exact ⟨x, y, z, w, rfl⟩
  have hx := x.isLt
  have hy := y.isLt
  have hz := z.isLt
  have hw := w.isLt
  simp only [bytesBe32, be32, beNat, List.foldl_cons, List.foldl_nil, List.cons.injEq, and_true]
  refine ⟨?_, ?_, ?_, ?_⟩ <;> apply BitVec.eq_of_toNat_eq <;>
    simp only [BitVec.extractLsb'_toNat, BitVec.toNat_ofNat, Nat.shiftRight_eq_div_pow] <;> omega

/-- Sixteen bytes survive the digest type. -/
theorem digestOfList_toList_of_length (b : List Byte) (h : b.length = 16) : (digestOfList b).toList = b := by
  simp [digestOfList, Vector.toList, h]

@[simp] theorem digestOfList_toList (d : Digest) : digestOfList d.toList = d := by
  apply Vector.toList_inj.mp
  exact digestOfList_toList_of_length _ (by simp)

end Sys2Proof.Machine
end

