-- ==== Sys2Proof/Laws/PerInstr.lean ====
section
/-! SUPPORT. Statements for every command, one lemma per constructor. Framing: the packet of a well-formed command is
as long as its own header says, whatever follows it in the stream (30_encoding.md R33, R35). -/

namespace Sys2Proof

open Sys2Proof.Machine

/-- The `len` field of a message that fits reads back as its length. -/
theorem beNat_length_field (msg : List Byte) (h : MessageFits msg) :
    beNat (bytesBe32 (BitVec.ofNat 32 msg.length)) = msg.length := by
  rw [beNat_bytesBe32, BitVec.toNat_ofNat, Nat.mod_eq_of_lt h]

/-- `field` is what stands after a prefix of its offset's length. -/
theorem field_append (a b c : List Byte) : field (a ++ (b ++ c)) a.length b.length = b := by
  simp [field]

namespace Laws.Framing

/-- A well-formed command's packet has the length its header gives (R33). -/
def Statement (i : Instr) : Prop :=
  i.WellFormed → ∀ rest, packetLength (encode i ++ rest) = some (encode i).length

theorem hash (seed : Word32) (msg : List Byte) : Statement (.hash seed msg) := by
  intro h rest
  have hl := beNat_length_field msg h
  have hf : field (encode (.hash seed msg) ++ rest) 5 4 = bytesBe32 (BitVec.ofNat 32 msg.length) := by
    simp [encode, field, bytesBe32]
  have hn : ¬ (encode (.hash seed msg) ++ rest).length < 9 := by simp [encode]; omega
  have hp : payloadLength .hash (encode (.hash seed msg) ++ rest) = msg.length := by
    rw [payloadLength, hf, hl]
  simp only [encode, List.cons_append] at hn hp ⊢
  simp only [packetLength, show opcodeOf 0x01#8 = some .hash from rfl, lengthKnownAfter, headerLength, if_neg hn, hp]
  simp
  omega

theorem index (d : Digest) : Statement (.index d) := by
  intro _ rest
  simp only [encode, List.cons_append, packetLength, show opcodeOf 0x02#8 = some .index from rfl, lengthKnownAfter,
    headerLength, payloadLength]
  simp

theorem message_frame (op : Opcode) (b : Byte) (msg rest : List Byte) (h : MessageFits msg)
    (hop : opcodeOf b = some op) (hk : lengthKnownAfter op = 5) (hh : headerLength op = 5)
    (hp : ∀ p, payloadLength op p = beNat (field p 1 4)) :
    packetLength (b :: (bytesBe32 (BitVec.ofNat 32 msg.length) ++ msg) ++ rest) = some (5 + msg.length) := by
  have hf : field (b :: (bytesBe32 (BitVec.ofNat 32 msg.length) ++ msg) ++ rest) 1 4 =
      bytesBe32 (BitVec.ofNat 32 msg.length) := by
    simp [field, bytesBe32]
  have hn : ¬ (b :: (bytesBe32 (BitVec.ofNat 32 msg.length) ++ msg) ++ rest).length < 5 := by simp
  have hl : payloadLength op (b :: (bytesBe32 (BitVec.ofNat 32 msg.length) ++ msg) ++ rest) = msg.length := by
    rw [hp, hf, beNat_length_field msg h]
  simp only [List.cons_append] at hn hl ⊢
  simp only [packetLength, hop, hk, hh, if_neg hn, hl]

theorem insert (msg : List Byte) : Statement (.insert msg) := by
  intro h rest
  rw [encode, message_frame .insert 0x03#8 msg rest h rfl rfl rfl (fun _ => rfl)]
  simp
  omega

theorem contains (msg : List Byte) : Statement (.contains msg) := by
  intro h rest
  rw [encode, message_frame .contains 0x04#8 msg rest h rfl rfl rfl (fun _ => rfl)]
  simp
  omega

theorem config (hashCount : Word16) (bitCount : Word32) : Statement (.config hashCount bitCount) := by
  intro _ rest
  simp only [encode, List.cons_append, packetLength, show opcodeOf 0x05#8 = some .config from rfl, lengthKnownAfter,
    headerLength, payloadLength]
  simp

theorem rdarr (addr : Word32) : Statement (.rdarr addr) := by
  intro _ rest
  simp only [encode, List.cons_append, packetLength, show opcodeOf 0x06#8 = some .rdarr from rfl, lengthKnownAfter,
    headerLength, payloadLength]
  simp

theorem wrarr (addr : Word32) (data : Byte) : Statement (.wrarr addr data) := by
  intro _ rest
  simp only [encode, List.cons_append, packetLength, show opcodeOf 0x07#8 = some .wrarr from rfl, lengthKnownAfter,
    headerLength, payloadLength]
  simp

theorem rdreg (regno : Byte) : Statement (.rdreg regno) := by
  intro _ rest
  simp only [encode, List.cons_append, packetLength, show opcodeOf 0x08#8 = some .rdreg from rfl, lengthKnownAfter,
    headerLength, payloadLength]
  simp

/-- All commands (R33). -/
theorem all (i : Instr) : Statement i := by
  cases i with
  | hash seed msg => exact hash seed msg
  | index d => exact index d
  | insert msg => exact insert msg
  | contains msg => exact contains msg
  | config hashCount bitCount => exact config hashCount bitCount
  | rdarr addr => exact rdarr addr
  | wrarr addr data => exact wrarr addr data
  | rdreg regno => exact rdreg regno

end Laws.Framing

end Sys2Proof
end

