-- ==== Sys2Proof/Laws/Decode.lean ====
section
/-! SUPPORT. What the decoder answers: its inversion, the operands of an encoded packet, and the opcode of one. -/

namespace Sys2Proof

open Sys2Proof.Machine

/-- The opcode of a command (R37). -/
def opcodeOfInstr : Instr → Opcode
  | .hash _ _ => .hash
  | .index _ => .index
  | .insert _ => .insert
  | .contains _ => .contains
  | .config _ _ => .config
  | .rdarr _ => .rdarr
  | .wrarr _ _ => .wrarr
  | .rdreg _ => .rdreg

/-- Every packet begins with its command's opcode byte (R33, R37). -/
theorem encode_eq_cons (i : Instr) : ∃ b p, encode i = b :: p ∧ opcodeOf b = some (opcodeOfInstr i) := by
  cases i <;> exact ⟨_, _, rfl, rfl⟩

theorem encode_ne_nil (i : Instr) : encode i ≠ [] := by
  obtain ⟨b, p, h, _⟩ := encode_eq_cons i
  simp [h]

/-- Operand assembly undoes the encoder (R35, R36). -/
theorem operands_encode (i : Instr) : operands (opcodeOfInstr i) (encode i) = i := by
  cases i with
  | hash seed msg =>
    have : field (encode (.hash seed msg)) 1 4 = bytesBe32 seed := by simp [encode, field, bytesBe32]
    simp only [opcodeOfInstr, operands, this, be32_bytesBe32]
    simp [encode, bytesBe32]
  | index d =>
    have : field (encode (.index d)) 1 16 = d.toList := by simp [encode, field]
    simp only [opcodeOfInstr, operands, this, digestOfList_toList]
  | insert msg => simp [opcodeOfInstr, operands, encode, bytesBe32]
  | contains msg => simp [opcodeOfInstr, operands, encode, bytesBe32]
  | config hashCount bitCount =>
    have h1 : field (encode (.config hashCount bitCount)) 1 2 = bytesBe16 hashCount := by
      simp [encode, field, bytesBe16]
    have h2 : field (encode (.config hashCount bitCount)) 3 4 = bytesBe32 bitCount := by
      simp [encode, field, bytesBe16, bytesBe32]
    simp only [opcodeOfInstr, operands, h1, h2, be16_bytesBe16, be32_bytesBe32]
  | rdarr addr =>
    have : field (encode (.rdarr addr)) 1 4 = bytesBe32 addr := by simp [encode, field, bytesBe32]
    simp only [opcodeOfInstr, operands, this, be32_bytesBe32]
  | wrarr addr data =>
    have : field (encode (.wrarr addr data)) 1 4 = bytesBe32 addr := by simp [encode, field, bytesBe32]
    simp only [opcodeOfInstr, operands, this, be32_bytesBe32]
    simp [encode, bytesBe32]
  | rdreg regno => simp [opcodeOfInstr, operands, encode]

/-- Everything the decoder can answer, and when. -/
theorem decode_cases (p : List Byte) :
    (p = [] ∧ decode p = .incomplete) ∨
    (∃ b rest, p = b :: rest ∧ opcodeOf b = none ∧ decode p = .illegal rest) ∨
    (∃ b rest op, p = b :: rest ∧ opcodeOf b = some op ∧ packetLength p = none ∧ decode p = .incomplete) ∨
    (∃ b rest op n, p = b :: rest ∧ opcodeOf b = some op ∧ packetLength p = some n ∧
      ((p.length < n ∧ decode p = .incomplete) ∨
       (n ≤ p.length ∧ decode p = .packet (operands op (p.take n)) (p.drop n)))) := by
  cases p with
  | nil => exact .inl ⟨rfl, rfl⟩
  | cons b rest =>
    right
    cases ho : opcodeOf b with
    | none => exact .inl ⟨b, rest, rfl, ho, by simp [decode, ho]⟩
    | some op =>
      right
      cases hn : packetLength (b :: rest) with
      | none => exact .inl ⟨b, rest, op, rfl, ho, rfl, by simp [decode, ho, hn]⟩
      | some n =>
        refine .inr ⟨b, rest, op, n, rfl, ho, rfl, ?_⟩
        by_cases hl : (b :: rest).length < n
        · exact .inl ⟨hl, by simp only [decode, ho, hn, if_pos hl]⟩
        · exact .inr ⟨by omega, by simp only [decode, ho, hn, if_neg hl]⟩

/-- The length of a packet once the bytes that fix it are there (R33). -/
theorem packetLength_cons (b : Byte) (rest : List Byte) (op : Opcode) (h : opcodeOf b = some op) :
    packetLength (b :: rest) = if (b :: rest).length < lengthKnownAfter op then none
      else some (headerLength op + payloadLength op (b :: rest)) := by
  simp only [packetLength, h]

/-- Which byte has an opcode (R37, R38). -/
theorem opcodeOf_eq_some {b : Byte} {op : Opcode} (h : opcodeOf b = some op) :
    (b = 0x01#8 ∧ op = .hash) ∨ (b = 0x02#8 ∧ op = .index) ∨ (b = 0x03#8 ∧ op = .insert) ∨
    (b = 0x04#8 ∧ op = .contains) ∨ (b = 0x05#8 ∧ op = .config) ∨ (b = 0x06#8 ∧ op = .rdarr) ∨
    (b = 0x07#8 ∧ op = .wrarr) ∨ (b = 0x08#8 ∧ op = .rdreg) := by
  unfold opcodeOf at h
  repeat' split at h
  all_goals simp_all

end Sys2Proof
end

