-- ==== Sys2Proof/Laws/Memory.lean ====
section
/-! SUPPORT. `BITS` as a list in canonical form: a read after a write, the form kept by every operation, equal reads
make equal lists, and `CONFIG`'s clearing is the loop of R80. -/

namespace Sys2Proof.Machine

@[simp] theorem Memory.read_nil (a : Nat) : Memory.read [] a = unlistedByte := rfl

theorem Memory.read_cons (c : Host.Cell) (m : Memory) (a : Nat) :
    Memory.read (c :: m) a = if c.1 = a then c.2 else Memory.read m a := rfl

/-- An address below every listed one reads as unlisted. -/
theorem Memory.read_of_lt (m : Memory) (a : Nat) (h : ∀ c ∈ m, a < c.1) : Memory.read m a = unlistedByte := by
  induction m with
  | nil => rfl
  | cons c m ih =>
    have hc := h c (by simp)
    rw [Memory.read_cons, if_neg (by omega)]
    exact ih (fun c hc => h c (by simp [hc]))

@[simp] theorem Memory.wf_nil : Memory.wf [] := by simp [Memory.wf]

theorem Memory.wf_cons (c : Host.Cell) (m : Memory) :
    Memory.wf (c :: m) ↔ (∀ d ∈ m, c.1 < d.1) ∧ c.2 ≠ unlistedByte ∧ Memory.wf m := by
  simp only [Memory.wf, List.pairwise_cons, List.mem_cons, forall_eq_or_imp]
  tauto

theorem Memory.read_consCell (k a : Nat) (v : Byte) (m : Memory) (h : ∀ c ∈ m, k < c.1) :
    Memory.read (Memory.consCell k v m) a = if k = a then v else Memory.read m a := by
  unfold Memory.consCell
  by_cases hv : v = unlistedByte
  · rw [if_pos hv]
    by_cases hk : k = a
    · rw [if_pos hk, hv, ← hk, Memory.read_of_lt m k h]
    · rw [if_neg hk]
  · rw [if_neg hv, Memory.read_cons]

theorem Memory.mem_consCell {k : Nat} {v : Byte} {m : Memory} {c : Host.Cell} (h : c ∈ Memory.consCell k v m) :
    c = (k, v) ∨ c ∈ m := by
  unfold Memory.consCell at h
  split at h
  · exact .inr h
  · simpa using h

theorem Memory.consCell_wf (k : Nat) (v : Byte) (m : Memory) (hm : m.wf) (h : ∀ c ∈ m, k < c.1) :
    (Memory.consCell k v m).wf := by
  unfold Memory.consCell
  by_cases hv : v = unlistedByte
  · rwa [if_pos hv]
  · rw [if_neg hv, Memory.wf_cons]
    exact ⟨h, hv, hm⟩

/-- Every listed address after a write is the one written or was listed before. -/
theorem Memory.mem_write {m : Memory} {a : Nat} {v : Byte} {c : Host.Cell} (h : c ∈ m.write a v) :
    c = (a, v) ∨ c ∈ m := by
  induction m with
  | nil => exact (Memory.mem_consCell h).imp id (by simp)
  | cons d m ih =>
    unfold Memory.write at h
    split at h
    · exact Memory.mem_consCell h
    · split at h
      · exact (Memory.mem_consCell h).imp id (List.mem_cons_of_mem _)
      · rcases List.mem_cons.mp h with rfl | h
        · exact .inr (by simp)
        · exact (ih h).imp id (List.mem_cons_of_mem _)

/-- A read after a write: the value written at its address, every other byte as before. -/
theorem Memory.read_write (m : Memory) (a b : Nat) (v : Byte) (hm : m.wf) :
    (m.write a v).read b = if a = b then v else m.read b := by
  induction m with
  | nil => exact Memory.read_consCell a b v [] (by simp)
  | cons c m ih =>
    rw [Memory.wf_cons] at hm
    obtain ⟨hlt, hne, hm⟩ := hm
    unfold Memory.write
    split
    · rename_i h
      refine Memory.read_consCell a b v (c :: m) ?_
      intro d hd
      rcases List.mem_cons.mp hd with rfl | hd
      · exact h
      · exact h.trans (hlt d hd)
    · split
      · rename_i h1 h2
        subst h2
        rw [Memory.read_consCell _ b v m hlt, Memory.read_cons]
        split <;> rfl
      · rename_i h1 h2
        rw [Memory.read_cons, Memory.read_cons, ih hm]
        split <;> split <;> simp_all

/-- A write keeps the canonical form. -/
theorem Memory.write_wf (m : Memory) (a : Nat) (v : Byte) (hm : m.wf) : (m.write a v).wf := by
  induction m with
  | nil => exact Memory.consCell_wf a v [] hm (by simp)
  | cons c m ih =>
    have hm' := hm
    rw [Memory.wf_cons] at hm
    obtain ⟨hlt, hne, hm⟩ := hm
    unfold Memory.write
    split
    · rename_i h
      refine Memory.consCell_wf a v _ hm' ?_
      intro d hd
      rcases List.mem_cons.mp hd with rfl | hd
      · exact h
      · exact h.trans (hlt d hd)
    · split
      · rename_i h1 h2
        subst h2
        exact Memory.consCell_wf _ v m hm hlt
      · rename_i h1 h2
        rw [Memory.wf_cons]
        refine ⟨?_, hne, ih hm⟩
        intro d hd
        rcases Memory.mem_write hd with rfl | hd
        · show c.1 < a
          omega
        · exact hlt d hd

/-- Clearing reads 0 below the bound and leaves the rest. -/
theorem Memory.read_clearBelow (m : Memory) (n a : Nat) :
    (m.clearBelow n).read a = if a < n then unlistedByte else m.read a := by
  induction m with
  | nil => simp [Memory.clearBelow]
  | cons c m ih =>
    unfold Memory.clearBelow at ih ⊢
    rw [List.filter_cons]
    by_cases h : n ≤ c.1
    · rw [if_pos (by simpa using h), Memory.read_cons, Memory.read_cons, ih]
      split <;> split <;> (simp_all; try omega)
    · rw [if_neg (by simpa using h), ih, Memory.read_cons]
      by_cases ha : a < n
      · rw [if_pos ha, if_pos ha]
      · rw [if_neg ha, if_neg ha, if_neg (by omega)]

theorem Memory.clearBelow_wf (m : Memory) (n : Nat) (hm : m.wf) : (m.clearBelow n).wf :=
  ⟨hm.1.filter _, fun c hc => hm.2 c (List.mem_filter.mp hc).1⟩

/-- In canonical form, equal reads make equal memories. -/
theorem Memory.ext_of_read {m m' : Memory} (hm : m.wf) (hm' : m'.wf) (h : ∀ a, m.read a = m'.read a) : m = m' := by
  induction m generalizing m' with
  | nil =>
    cases m' with
    | nil => rfl
    | cons d m' =>
      rw [Memory.wf_cons] at hm'
      have := h d.1
      rw [Memory.read_nil, Memory.read_cons, if_pos rfl] at this
      exact absurd this.symm hm'.2.1
  | cons c m ih =>
    rw [Memory.wf_cons] at hm
    obtain ⟨hlt, hne, hm⟩ := hm
    cases m' with
    | nil =>
      have := h c.1
      rw [Memory.read_nil, Memory.read_cons, if_pos rfl] at this
      exact absurd this hne
    | cons d m' =>
      rw [Memory.wf_cons] at hm'
      obtain ⟨hlt', hne', hm'⟩ := hm'
      have hcd : c.1 = d.1 := by
        rcases Nat.lt_trichotomy c.1 d.1 with hl | he | hl
        · have := h c.1
          rw [Memory.read_cons, if_pos rfl, Memory.read_of_lt (d :: m') c.1] at this
          · exact absurd this hne
          · intro e he
            rcases List.mem_cons.mp he with rfl | he
            · exact hl
            · exact hl.trans (hlt' e he)
        · exact he
        · have := h d.1
          rw [Memory.read_cons d, if_pos rfl, Memory.read_of_lt (c :: m) d.1] at this
          · exact absurd this.symm hne'
          · intro e he
            rcases List.mem_cons.mp he with rfl | he
            · exact hl
            · exact hl.trans (hlt e he)
      have hv : c.2 = d.2 := by
        have := h c.1
        rwa [Memory.read_cons, if_pos rfl, Memory.read_cons, if_pos hcd.symm] at this
      have hrest : m = m' := by
        refine ih hm hm' (fun a => ?_)
        have := h a
        rw [Memory.read_cons, Memory.read_cons] at this
        by_cases ha : c.1 = a
        · rw [Memory.read_of_lt m a (fun e he => ha ▸ hlt e he),
            Memory.read_of_lt m' a (fun e he => ha ▸ hcd ▸ hlt' e he)]
        · rwa [if_neg ha, if_neg (by omega)] at this
      rw [hrest, Prod.ext hcd hv]

/-- `CONFIG`'s clearing is the loop of R80: 0x00 written to addresses 0 to n - 1 in turn. -/
theorem Memory.clearBelow_eq_writes (m : Memory) (n : Nat) (hm : m.wf) :
    m.clearBelow n = (List.range n).foldl (fun m a => m.write a 0x00) m := by
  have key : ∀ n, ((List.range n).foldl (fun m a => m.write a (0x00 : Byte)) m).wf ∧
      ∀ a, ((List.range n).foldl (fun m a => m.write a (0x00 : Byte)) m).read a =
        if a < n then unlistedByte else m.read a := by
    intro n
    induction n with
    | zero => simpa using hm
    | succ n ih =>
      rw [List.range_succ, List.foldl_append, List.foldl_cons, List.foldl_nil]
      refine ⟨Memory.write_wf _ _ _ ih.1, fun a => ?_⟩
      rw [Memory.read_write _ _ _ _ ih.1, ih.2]
      have h0 : (0x00 : Byte) = unlistedByte := rfl
      by_cases h : n = a
      · rw [if_pos h, if_pos (by omega), h0]
      · rw [if_neg h]
        by_cases h' : a < n
        · rw [if_pos h', if_pos (by omega)]
        · rw [if_neg h', if_neg (by omega)]
  exact Memory.ext_of_read (Memory.clearBelow_wf m n hm) (key n).1
    (fun a => by rw [Memory.read_clearBelow, (key n).2])

end Sys2Proof.Machine
end

