-- ==== Sys2Proof/Laws/State.lean ====
section
/-! SUPPORT. What each named operation does to each field of State: one lemma per field per operation, by rfl, so that
no proof unfolds a record update. -/

namespace Sys2Proof.Machine

variable (s : State)

/-! ### memWrite -/

@[simp] theorem memWrite_bitCount (a : Nat) (v : Byte) : (memWrite a v s).bitCount = s.bitCount := rfl
@[simp] theorem memWrite_hashCount (a : Nat) (v : Byte) : (memWrite a v s).hashCount = s.hashCount := rfl
@[simp] theorem memWrite_bits (a : Nat) (v : Byte) : (memWrite a v s).bits = s.bits.write a v := rfl
@[simp] theorem memWrite_digest (a : Nat) (v : Byte) : (memWrite a v s).digest = s.digest := rfl
@[simp] theorem memWrite_bitIndex (a : Nat) (v : Byte) : (memWrite a v s).bitIndex = s.bitIndex := rfl
@[simp] theorem memWrite_byteIndex (a : Nat) (v : Byte) : (memWrite a v s).byteIndex = s.byteIndex := rfl
@[simp] theorem memWrite_mask (a : Nat) (v : Byte) : (memWrite a v s).mask = s.mask := rfl
@[simp] theorem memWrite_result (a : Nat) (v : Byte) : (memWrite a v s).result = s.result := rfl
@[simp] theorem memWrite_probes (a : Nat) (v : Byte) : (memWrite a v s).probes = s.probes := rfl
@[simp] theorem memWrite_errFlags (a : Nat) (v : Byte) : (memWrite a v s).errFlags = s.errFlags := rfl
@[simp] theorem memWrite_halt (a : Nat) (v : Byte) : (memWrite a v s).halt = s.halt := rfl
@[simp] theorem memWrite_pkt (a : Nat) (v : Byte) : (memWrite a v s).pkt = s.pkt := rfl
@[simp] theorem memWrite_hashRegs (a : Nat) (v : Byte) : (memWrite a v s).hashRegs = s.hashRegs := rfl
@[simp] theorem memWrite_params (a : Nat) (v : Byte) : (memWrite a v s).params = s.params := rfl
@[simp] theorem memWrite_freeIndex (a : Nat) (v : Byte) : (memWrite a v s).freeIndex = s.freeIndex := rfl
@[simp] theorem memWrite_input (a : Nat) (v : Byte) : (memWrite a v s).input = s.input := rfl
@[simp] theorem memWrite_output (a : Nat) (v : Byte) : (memWrite a v s).output = s.output := rfl

/-! ### clearArray -/

@[simp] theorem clearArray_bitCount (n : Nat) : (clearArray n s).bitCount = s.bitCount := rfl
@[simp] theorem clearArray_hashCount (n : Nat) : (clearArray n s).hashCount = s.hashCount := rfl
@[simp] theorem clearArray_bits (n : Nat) : (clearArray n s).bits = s.bits.clearBelow n := rfl
@[simp] theorem clearArray_digest (n : Nat) : (clearArray n s).digest = s.digest := rfl
@[simp] theorem clearArray_bitIndex (n : Nat) : (clearArray n s).bitIndex = s.bitIndex := rfl
@[simp] theorem clearArray_byteIndex (n : Nat) : (clearArray n s).byteIndex = s.byteIndex := rfl
@[simp] theorem clearArray_mask (n : Nat) : (clearArray n s).mask = s.mask := rfl
@[simp] theorem clearArray_result (n : Nat) : (clearArray n s).result = s.result := rfl
@[simp] theorem clearArray_probes (n : Nat) : (clearArray n s).probes = s.probes := rfl
@[simp] theorem clearArray_errFlags (n : Nat) : (clearArray n s).errFlags = s.errFlags := rfl
@[simp] theorem clearArray_halt (n : Nat) : (clearArray n s).halt = s.halt := rfl
@[simp] theorem clearArray_pkt (n : Nat) : (clearArray n s).pkt = s.pkt := rfl
@[simp] theorem clearArray_hashRegs (n : Nat) : (clearArray n s).hashRegs = s.hashRegs := rfl
@[simp] theorem clearArray_params (n : Nat) : (clearArray n s).params = s.params := rfl
@[simp] theorem clearArray_freeIndex (n : Nat) : (clearArray n s).freeIndex = s.freeIndex := rfl
@[simp] theorem clearArray_input (n : Nat) : (clearArray n s).input = s.input := rfl
@[simp] theorem clearArray_output (n : Nat) : (clearArray n s).output = s.output := rfl

/-! ### writeDigest -/

@[simp] theorem writeDigest_bitCount (d : Digest) : (writeDigest d s).bitCount = s.bitCount := rfl
@[simp] theorem writeDigest_hashCount (d : Digest) : (writeDigest d s).hashCount = s.hashCount := rfl
@[simp] theorem writeDigest_bits (d : Digest) : (writeDigest d s).bits = s.bits := rfl
@[simp] theorem writeDigest_digest (d : Digest) : (writeDigest d s).digest = d := rfl
@[simp] theorem writeDigest_bitIndex (d : Digest) : (writeDigest d s).bitIndex = s.bitIndex := rfl
@[simp] theorem writeDigest_byteIndex (d : Digest) : (writeDigest d s).byteIndex = s.byteIndex := rfl
@[simp] theorem writeDigest_mask (d : Digest) : (writeDigest d s).mask = s.mask := rfl
@[simp] theorem writeDigest_result (d : Digest) : (writeDigest d s).result = s.result := rfl
@[simp] theorem writeDigest_probes (d : Digest) : (writeDigest d s).probes = s.probes := rfl
@[simp] theorem writeDigest_errFlags (d : Digest) : (writeDigest d s).errFlags = s.errFlags := rfl
@[simp] theorem writeDigest_halt (d : Digest) : (writeDigest d s).halt = s.halt := rfl
@[simp] theorem writeDigest_pkt (d : Digest) : (writeDigest d s).pkt = s.pkt := rfl
@[simp] theorem writeDigest_hashRegs (d : Digest) : (writeDigest d s).hashRegs = s.hashRegs := rfl
@[simp] theorem writeDigest_params (d : Digest) : (writeDigest d s).params = s.params := rfl
@[simp] theorem writeDigest_freeIndex (d : Digest) : (writeDigest d s).freeIndex = s.freeIndex := rfl
@[simp] theorem writeDigest_input (d : Digest) : (writeDigest d s).input = s.input := rfl
@[simp] theorem writeDigest_output (d : Digest) : (writeDigest d s).output = s.output := rfl

/-! ### writeIndex -/

@[simp] theorem writeIndex_bitCount (b : BitAddr) : (writeIndex b s).bitCount = s.bitCount := rfl
@[simp] theorem writeIndex_hashCount (b : BitAddr) : (writeIndex b s).hashCount = s.hashCount := rfl
@[simp] theorem writeIndex_bits (b : BitAddr) : (writeIndex b s).bits = s.bits := rfl
@[simp] theorem writeIndex_digest (b : BitAddr) : (writeIndex b s).digest = s.digest := rfl
@[simp] theorem writeIndex_bitIndex (b : BitAddr) : (writeIndex b s).bitIndex = b.bitIndex := rfl
@[simp] theorem writeIndex_byteIndex (b : BitAddr) : (writeIndex b s).byteIndex = b.byteIndex := rfl
@[simp] theorem writeIndex_mask (b : BitAddr) : (writeIndex b s).mask = b.mask := rfl
@[simp] theorem writeIndex_result (b : BitAddr) : (writeIndex b s).result = s.result := rfl
@[simp] theorem writeIndex_probes (b : BitAddr) : (writeIndex b s).probes = s.probes := rfl
@[simp] theorem writeIndex_errFlags (b : BitAddr) : (writeIndex b s).errFlags = s.errFlags := rfl
@[simp] theorem writeIndex_halt (b : BitAddr) : (writeIndex b s).halt = s.halt := rfl
@[simp] theorem writeIndex_pkt (b : BitAddr) : (writeIndex b s).pkt = s.pkt := rfl
@[simp] theorem writeIndex_hashRegs (b : BitAddr) : (writeIndex b s).hashRegs = s.hashRegs := rfl
@[simp] theorem writeIndex_params (b : BitAddr) : (writeIndex b s).params = s.params := rfl
@[simp] theorem writeIndex_freeIndex (b : BitAddr) : (writeIndex b s).freeIndex = s.freeIndex := rfl
@[simp] theorem writeIndex_input (b : BitAddr) : (writeIndex b s).input = s.input := rfl
@[simp] theorem writeIndex_output (b : BitAddr) : (writeIndex b s).output = s.output := rfl

/-! ### writeResult -/

@[simp] theorem writeResult_bitCount (r : Bool) : (writeResult r s).bitCount = s.bitCount := rfl
@[simp] theorem writeResult_hashCount (r : Bool) : (writeResult r s).hashCount = s.hashCount := rfl
@[simp] theorem writeResult_bits (r : Bool) : (writeResult r s).bits = s.bits := rfl
@[simp] theorem writeResult_digest (r : Bool) : (writeResult r s).digest = s.digest := rfl
@[simp] theorem writeResult_bitIndex (r : Bool) : (writeResult r s).bitIndex = s.bitIndex := rfl
@[simp] theorem writeResult_byteIndex (r : Bool) : (writeResult r s).byteIndex = s.byteIndex := rfl
@[simp] theorem writeResult_mask (r : Bool) : (writeResult r s).mask = s.mask := rfl
@[simp] theorem writeResult_result (r : Bool) : (writeResult r s).result = r := rfl
@[simp] theorem writeResult_probes (r : Bool) : (writeResult r s).probes = s.probes := rfl
@[simp] theorem writeResult_errFlags (r : Bool) : (writeResult r s).errFlags = s.errFlags := rfl
@[simp] theorem writeResult_halt (r : Bool) : (writeResult r s).halt = s.halt := rfl
@[simp] theorem writeResult_pkt (r : Bool) : (writeResult r s).pkt = s.pkt := rfl
@[simp] theorem writeResult_hashRegs (r : Bool) : (writeResult r s).hashRegs = s.hashRegs := rfl
@[simp] theorem writeResult_params (r : Bool) : (writeResult r s).params = s.params := rfl
@[simp] theorem writeResult_freeIndex (r : Bool) : (writeResult r s).freeIndex = s.freeIndex := rfl
@[simp] theorem writeResult_input (r : Bool) : (writeResult r s).input = s.input := rfl
@[simp] theorem writeResult_output (r : Bool) : (writeResult r s).output = s.output := rfl

/-! ### writeProbes -/

@[simp] theorem writeProbes_bitCount (n : Word16) : (writeProbes n s).bitCount = s.bitCount := rfl
@[simp] theorem writeProbes_hashCount (n : Word16) : (writeProbes n s).hashCount = s.hashCount := rfl
@[simp] theorem writeProbes_bits (n : Word16) : (writeProbes n s).bits = s.bits := rfl
@[simp] theorem writeProbes_digest (n : Word16) : (writeProbes n s).digest = s.digest := rfl
@[simp] theorem writeProbes_bitIndex (n : Word16) : (writeProbes n s).bitIndex = s.bitIndex := rfl
@[simp] theorem writeProbes_byteIndex (n : Word16) : (writeProbes n s).byteIndex = s.byteIndex := rfl
@[simp] theorem writeProbes_mask (n : Word16) : (writeProbes n s).mask = s.mask := rfl
@[simp] theorem writeProbes_result (n : Word16) : (writeProbes n s).result = s.result := rfl
@[simp] theorem writeProbes_probes (n : Word16) : (writeProbes n s).probes = n := rfl
@[simp] theorem writeProbes_errFlags (n : Word16) : (writeProbes n s).errFlags = s.errFlags := rfl
@[simp] theorem writeProbes_halt (n : Word16) : (writeProbes n s).halt = s.halt := rfl
@[simp] theorem writeProbes_pkt (n : Word16) : (writeProbes n s).pkt = s.pkt := rfl
@[simp] theorem writeProbes_hashRegs (n : Word16) : (writeProbes n s).hashRegs = s.hashRegs := rfl
@[simp] theorem writeProbes_params (n : Word16) : (writeProbes n s).params = s.params := rfl
@[simp] theorem writeProbes_freeIndex (n : Word16) : (writeProbes n s).freeIndex = s.freeIndex := rfl
@[simp] theorem writeProbes_input (n : Word16) : (writeProbes n s).input = s.input := rfl
@[simp] theorem writeProbes_output (n : Word16) : (writeProbes n s).output = s.output := rfl

/-! ### writeConfig -/

@[simp] theorem writeConfig_bitCount (hc : Word16) (bc : Word32) : (writeConfig hc bc s).bitCount = bc := rfl
@[simp] theorem writeConfig_hashCount (hc : Word16) (bc : Word32) : (writeConfig hc bc s).hashCount = hc := rfl
@[simp] theorem writeConfig_bits (hc : Word16) (bc : Word32) : (writeConfig hc bc s).bits = s.bits := rfl
@[simp] theorem writeConfig_digest (hc : Word16) (bc : Word32) : (writeConfig hc bc s).digest = s.digest := rfl
@[simp] theorem writeConfig_bitIndex (hc : Word16) (bc : Word32) : (writeConfig hc bc s).bitIndex = s.bitIndex := rfl
@[simp] theorem writeConfig_byteIndex (hc : Word16) (bc : Word32) : (writeConfig hc bc s).byteIndex = s.byteIndex := rfl
@[simp] theorem writeConfig_mask (hc : Word16) (bc : Word32) : (writeConfig hc bc s).mask = s.mask := rfl
@[simp] theorem writeConfig_result (hc : Word16) (bc : Word32) : (writeConfig hc bc s).result = s.result := rfl
@[simp] theorem writeConfig_probes (hc : Word16) (bc : Word32) : (writeConfig hc bc s).probes = s.probes := rfl
@[simp] theorem writeConfig_errFlags (hc : Word16) (bc : Word32) : (writeConfig hc bc s).errFlags = s.errFlags := rfl
@[simp] theorem writeConfig_halt (hc : Word16) (bc : Word32) : (writeConfig hc bc s).halt = s.halt := rfl
@[simp] theorem writeConfig_pkt (hc : Word16) (bc : Word32) : (writeConfig hc bc s).pkt = s.pkt := rfl
@[simp] theorem writeConfig_hashRegs (hc : Word16) (bc : Word32) : (writeConfig hc bc s).hashRegs = s.hashRegs := rfl
@[simp] theorem writeConfig_params (hc : Word16) (bc : Word32) : (writeConfig hc bc s).params = s.params := rfl
@[simp] theorem writeConfig_freeIndex (hc : Word16) (bc : Word32) : (writeConfig hc bc s).freeIndex = s.freeIndex := rfl
@[simp] theorem writeConfig_input (hc : Word16) (bc : Word32) : (writeConfig hc bc s).input = s.input := rfl
@[simp] theorem writeConfig_output (hc : Word16) (bc : Word32) : (writeConfig hc bc s).output = s.output := rfl

/-! ### releaseHashRegs -/

@[simp] theorem releaseHashRegs_bitCount : (releaseHashRegs s).bitCount = s.bitCount := rfl
@[simp] theorem releaseHashRegs_hashCount : (releaseHashRegs s).hashCount = s.hashCount := rfl
@[simp] theorem releaseHashRegs_bits : (releaseHashRegs s).bits = s.bits := rfl
@[simp] theorem releaseHashRegs_digest : (releaseHashRegs s).digest = s.digest := rfl
@[simp] theorem releaseHashRegs_bitIndex : (releaseHashRegs s).bitIndex = s.bitIndex := rfl
@[simp] theorem releaseHashRegs_byteIndex : (releaseHashRegs s).byteIndex = s.byteIndex := rfl
@[simp] theorem releaseHashRegs_mask : (releaseHashRegs s).mask = s.mask := rfl
@[simp] theorem releaseHashRegs_result : (releaseHashRegs s).result = s.result := rfl
@[simp] theorem releaseHashRegs_probes : (releaseHashRegs s).probes = s.probes := rfl
@[simp] theorem releaseHashRegs_errFlags : (releaseHashRegs s).errFlags = s.errFlags := rfl
@[simp] theorem releaseHashRegs_halt : (releaseHashRegs s).halt = s.halt := rfl
@[simp] theorem releaseHashRegs_pkt : (releaseHashRegs s).pkt = s.pkt := rfl
@[simp] theorem releaseHashRegs_hashRegs : (releaseHashRegs s).hashRegs = freeHashRegs s.freeIndex := rfl
@[simp] theorem releaseHashRegs_params : (releaseHashRegs s).params = s.params := rfl
@[simp] theorem releaseHashRegs_freeIndex : (releaseHashRegs s).freeIndex = s.freeIndex + 5 := rfl
@[simp] theorem releaseHashRegs_input : (releaseHashRegs s).input = s.input := rfl
@[simp] theorem releaseHashRegs_output : (releaseHashRegs s).output = s.output := rfl

/-! ### respond -/

@[simp] theorem respond_bitCount (b : List Byte) : (respond b s).bitCount = s.bitCount := rfl
@[simp] theorem respond_hashCount (b : List Byte) : (respond b s).hashCount = s.hashCount := rfl
@[simp] theorem respond_bits (b : List Byte) : (respond b s).bits = s.bits := rfl
@[simp] theorem respond_digest (b : List Byte) : (respond b s).digest = s.digest := rfl
@[simp] theorem respond_bitIndex (b : List Byte) : (respond b s).bitIndex = s.bitIndex := rfl
@[simp] theorem respond_byteIndex (b : List Byte) : (respond b s).byteIndex = s.byteIndex := rfl
@[simp] theorem respond_mask (b : List Byte) : (respond b s).mask = s.mask := rfl
@[simp] theorem respond_result (b : List Byte) : (respond b s).result = s.result := rfl
@[simp] theorem respond_probes (b : List Byte) : (respond b s).probes = s.probes := rfl
@[simp] theorem respond_errFlags (b : List Byte) : (respond b s).errFlags = s.errFlags := rfl
@[simp] theorem respond_halt (b : List Byte) : (respond b s).halt = s.halt := rfl
@[simp] theorem respond_pkt (b : List Byte) : (respond b s).pkt = s.pkt := rfl
@[simp] theorem respond_hashRegs (b : List Byte) : (respond b s).hashRegs = s.hashRegs := rfl
@[simp] theorem respond_params (b : List Byte) : (respond b s).params = s.params := rfl
@[simp] theorem respond_freeIndex (b : List Byte) : (respond b s).freeIndex = s.freeIndex := rfl
@[simp] theorem respond_input (b : List Byte) : (respond b s).input = s.input := rfl
@[simp] theorem respond_output (b : List Byte) : (respond b s).output = s.output ++ b := rfl

/-! ### respondOk -/

@[simp] theorem respondOk_bitCount (b : List Byte) : (respondOk b s).bitCount = s.bitCount := rfl
@[simp] theorem respondOk_hashCount (b : List Byte) : (respondOk b s).hashCount = s.hashCount := rfl
@[simp] theorem respondOk_bits (b : List Byte) : (respondOk b s).bits = s.bits := rfl
@[simp] theorem respondOk_digest (b : List Byte) : (respondOk b s).digest = s.digest := rfl
@[simp] theorem respondOk_bitIndex (b : List Byte) : (respondOk b s).bitIndex = s.bitIndex := rfl
@[simp] theorem respondOk_byteIndex (b : List Byte) : (respondOk b s).byteIndex = s.byteIndex := rfl
@[simp] theorem respondOk_mask (b : List Byte) : (respondOk b s).mask = s.mask := rfl
@[simp] theorem respondOk_result (b : List Byte) : (respondOk b s).result = s.result := rfl
@[simp] theorem respondOk_probes (b : List Byte) : (respondOk b s).probes = s.probes := rfl
@[simp] theorem respondOk_errFlags (b : List Byte) : (respondOk b s).errFlags = s.errFlags := rfl
@[simp] theorem respondOk_halt (b : List Byte) : (respondOk b s).halt = s.halt := rfl
@[simp] theorem respondOk_pkt (b : List Byte) : (respondOk b s).pkt = s.pkt := rfl
@[simp] theorem respondOk_hashRegs (b : List Byte) : (respondOk b s).hashRegs = s.hashRegs := rfl
@[simp] theorem respondOk_params (b : List Byte) : (respondOk b s).params = s.params := rfl
@[simp] theorem respondOk_freeIndex (b : List Byte) : (respondOk b s).freeIndex = s.freeIndex := rfl
@[simp] theorem respondOk_input (b : List Byte) : (respondOk b s).input = s.input := rfl
@[simp] theorem respondOk_output (b : List Byte) : (respondOk b s).output = s.output ++ statusCode .ok :: b := rfl

/-! ### raiseStatus -/

@[simp] theorem raiseStatus_bitCount (e : Status) : (raiseStatus e s).bitCount = s.bitCount := rfl
@[simp] theorem raiseStatus_hashCount (e : Status) : (raiseStatus e s).hashCount = s.hashCount := rfl
@[simp] theorem raiseStatus_bits (e : Status) : (raiseStatus e s).bits = s.bits := rfl
@[simp] theorem raiseStatus_digest (e : Status) : (raiseStatus e s).digest = s.digest := rfl
@[simp] theorem raiseStatus_bitIndex (e : Status) : (raiseStatus e s).bitIndex = s.bitIndex := rfl
@[simp] theorem raiseStatus_byteIndex (e : Status) : (raiseStatus e s).byteIndex = s.byteIndex := rfl
@[simp] theorem raiseStatus_mask (e : Status) : (raiseStatus e s).mask = s.mask := rfl
@[simp] theorem raiseStatus_result (e : Status) : (raiseStatus e s).result = s.result := rfl
@[simp] theorem raiseStatus_probes (e : Status) : (raiseStatus e s).probes = s.probes := rfl
@[simp] theorem raiseStatus_errFlags (e : Status) : (raiseStatus e s).errFlags = s.errFlags ||| errFlag e := rfl
@[simp] theorem raiseStatus_halt (e : Status) : (raiseStatus e s).halt = (s.halt || haltsBlock e) := rfl
@[simp] theorem raiseStatus_pkt (e : Status) : (raiseStatus e s).pkt = s.pkt := rfl
@[simp] theorem raiseStatus_hashRegs (e : Status) : (raiseStatus e s).hashRegs = s.hashRegs := rfl
@[simp] theorem raiseStatus_params (e : Status) : (raiseStatus e s).params = s.params := rfl
@[simp] theorem raiseStatus_freeIndex (e : Status) : (raiseStatus e s).freeIndex = s.freeIndex := rfl
@[simp] theorem raiseStatus_input (e : Status) : (raiseStatus e s).input = s.input := rfl
@[simp] theorem raiseStatus_output (e : Status) : (raiseStatus e s).output = s.output ++ [statusCode e] := rfl

/-! ### resetBlock -/

@[simp] theorem resetBlock_bitCount : (resetBlock s).bitCount = State.reset.bitCount := rfl
@[simp] theorem resetBlock_hashCount : (resetBlock s).hashCount = State.reset.hashCount := rfl
@[simp] theorem resetBlock_bits : (resetBlock s).bits = s.bits := rfl
@[simp] theorem resetBlock_digest : (resetBlock s).digest = State.reset.digest := rfl
@[simp] theorem resetBlock_bitIndex : (resetBlock s).bitIndex = State.reset.bitIndex := rfl
@[simp] theorem resetBlock_byteIndex : (resetBlock s).byteIndex = State.reset.byteIndex := rfl
@[simp] theorem resetBlock_mask : (resetBlock s).mask = State.reset.mask := rfl
@[simp] theorem resetBlock_result : (resetBlock s).result = State.reset.result := rfl
@[simp] theorem resetBlock_probes : (resetBlock s).probes = State.reset.probes := rfl
@[simp] theorem resetBlock_errFlags : (resetBlock s).errFlags = State.reset.errFlags := rfl
@[simp] theorem resetBlock_halt : (resetBlock s).halt = State.reset.halt := rfl
@[simp] theorem resetBlock_pkt : (resetBlock s).pkt = State.reset.pkt := rfl
@[simp] theorem resetBlock_hashRegs : (resetBlock s).hashRegs = State.reset.hashRegs := rfl
@[simp] theorem resetBlock_params : (resetBlock s).params = s.params := rfl
@[simp] theorem resetBlock_freeIndex : (resetBlock s).freeIndex = s.freeIndex := rfl
@[simp] theorem resetBlock_input : (resetBlock s).input = s.input := rfl
@[simp] theorem resetBlock_output : (resetBlock s).output = s.output := rfl

/-! ### hostDoes -/

@[simp] theorem hostDoes_bitCount (e : List HostEvent) : (hostDoes e s).bitCount = s.bitCount := rfl
@[simp] theorem hostDoes_hashCount (e : List HostEvent) : (hostDoes e s).hashCount = s.hashCount := rfl
@[simp] theorem hostDoes_bits (e : List HostEvent) : (hostDoes e s).bits = s.bits := rfl
@[simp] theorem hostDoes_digest (e : List HostEvent) : (hostDoes e s).digest = s.digest := rfl
@[simp] theorem hostDoes_bitIndex (e : List HostEvent) : (hostDoes e s).bitIndex = s.bitIndex := rfl
@[simp] theorem hostDoes_byteIndex (e : List HostEvent) : (hostDoes e s).byteIndex = s.byteIndex := rfl
@[simp] theorem hostDoes_mask (e : List HostEvent) : (hostDoes e s).mask = s.mask := rfl
@[simp] theorem hostDoes_result (e : List HostEvent) : (hostDoes e s).result = s.result := rfl
@[simp] theorem hostDoes_probes (e : List HostEvent) : (hostDoes e s).probes = s.probes := rfl
@[simp] theorem hostDoes_errFlags (e : List HostEvent) : (hostDoes e s).errFlags = s.errFlags := rfl
@[simp] theorem hostDoes_halt (e : List HostEvent) : (hostDoes e s).halt = s.halt := rfl
@[simp] theorem hostDoes_pkt (e : List HostEvent) : (hostDoes e s).pkt = s.pkt := rfl
@[simp] theorem hostDoes_hashRegs (e : List HostEvent) : (hostDoes e s).hashRegs = s.hashRegs := rfl
@[simp] theorem hostDoes_params (e : List HostEvent) : (hostDoes e s).params = s.params := rfl
@[simp] theorem hostDoes_freeIndex (e : List HostEvent) : (hostDoes e s).freeIndex = s.freeIndex := rfl
@[simp] theorem hostDoes_input (e : List HostEvent) : (hostDoes e s).input = s.input ++ e := rfl
@[simp] theorem hostDoes_output (e : List HostEvent) : (hostDoes e s).output = s.output := rfl

end Sys2Proof.Machine
end

