-- ==== Sys2Proof/Laws/Ops.lean ====
section
/-! SUPPORT. The shared operations of the hash engine and of the probes, once each: what an evaluation, a probe and a
set bit do to every field; what `memRead` sees after each operation. -/

namespace Sys2Proof.Machine

/-- Two contents of the datapath registers that agree on `H1`, `H2`, `LEN`: no phase reads more (R11). -/
abbrev HashRegs.Agree (r r' : HashRegs) : Prop := r.h1 = r'.h1 ∧ r.h2 = r'.h2 ∧ r.len = r'.len

theorem HashRegs.eq_of_agree_k {r r' : HashRegs} (h : r.Agree r') (a b : Word64) :
    ({ r with k1 := a, k2 := b } : HashRegs) = { r' with k1 := a, k2 := b } := by
  obtain ⟨h1, h2, h3⟩ := h
  rw [h1, h2, h3]

/-- A block step reads no `K1`, `K2` of before (R52). -/
theorem blockStep_congr (b : List Byte) {r r' : HashRegs} (h : r.Agree r') : blockStep b r = blockStep b r' := by
  unfold blockStep
  exact congrArg (fun x => absorbK2 (absorbK1 x)) (HashRegs.eq_of_agree_k h _ _)

theorem foldl_blockStep_agree (l : List (List Byte)) {r r' : HashRegs} (h : r.Agree r') :
    (l.foldl (fun r block => blockStep block r) r).Agree (l.foldl (fun r block => blockStep block r) r') := by
  cases l with
  | nil => exact h
  | cons b l =>
    rw [List.foldl_cons, List.foldl_cons, blockStep_congr b h]
    exact ⟨rfl, rfl, rfl⟩

theorem blockLoop_agree (n : Nat) (msg : List Byte) {r r' : HashRegs} (h : r.Agree r') :
    (blockLoop n msg r).Agree (blockLoop n msg r') := foldl_blockStep_agree _ h

/-- The tail step reads no `K1`, `K2` of before (R53). -/
theorem tailStep_congr (tail : List Byte) {r r' : HashRegs} (h : r.Agree r') : tailStep tail r = tailStep tail r' := by
  unfold tailStep
  rw [HashRegs.eq_of_agree_k h]

/-- `Murmur128` reads nothing an earlier evaluation left (R11). -/
theorem murmurRegs_congr (ext : SeedExt) (msg : List Byte) (seed : Word32) (r r' : HashRegs) :
    murmurRegs ext msg seed r = murmurRegs ext msg seed r' := by
  unfold murmurRegs
  exact congrArg (fun x => avalancheStep (lengthStep x)) (tailStep_congr _ (blockLoop_agree _ _ ⟨rfl, rfl, rfl⟩))

theorem hashOutput_murmurRegs (ext : SeedExt) (msg : List Byte) (seed : Word32) (r : HashRegs) :
    hashOutput (murmurRegs ext msg seed r) = murmur128 ext msg seed := by
  unfold murmur128
  rw [murmurRegs_congr ext msg seed r]

variable (s : State)

/-! ### One evaluation of Murmur128 -/

@[simp] theorem evalHash_bitCount (msg : List Byte) (seed : Word32) : (evalHash msg seed s).bitCount = s.bitCount := rfl
@[simp] theorem evalHash_hashCount (msg : List Byte) (seed : Word32) : (evalHash msg seed s).hashCount = s.hashCount := rfl
@[simp] theorem evalHash_bits (msg : List Byte) (seed : Word32) : (evalHash msg seed s).bits = s.bits := rfl
@[simp] theorem evalHash_digest (msg : List Byte) (seed : Word32) :
    (evalHash msg seed s).digest = murmur128 s.params.seedExt msg seed :=
  hashOutput_murmurRegs s.params.seedExt msg seed s.hashRegs
@[simp] theorem evalHash_bitIndex (msg : List Byte) (seed : Word32) : (evalHash msg seed s).bitIndex = s.bitIndex := rfl
@[simp] theorem evalHash_byteIndex (msg : List Byte) (seed : Word32) : (evalHash msg seed s).byteIndex = s.byteIndex := rfl
@[simp] theorem evalHash_mask (msg : List Byte) (seed : Word32) : (evalHash msg seed s).mask = s.mask := rfl
@[simp] theorem evalHash_result (msg : List Byte) (seed : Word32) : (evalHash msg seed s).result = s.result := rfl
@[simp] theorem evalHash_probes (msg : List Byte) (seed : Word32) : (evalHash msg seed s).probes = s.probes := rfl
@[simp] theorem evalHash_errFlags (msg : List Byte) (seed : Word32) : (evalHash msg seed s).errFlags = s.errFlags := rfl
@[simp] theorem evalHash_halt (msg : List Byte) (seed : Word32) : (evalHash msg seed s).halt = s.halt := rfl
@[simp] theorem evalHash_pkt (msg : List Byte) (seed : Word32) : (evalHash msg seed s).pkt = s.pkt := rfl
@[simp] theorem evalHash_hashRegs (msg : List Byte) (seed : Word32) :
    (evalHash msg seed s).hashRegs = freeHashRegs s.freeIndex := rfl
@[simp] theorem evalHash_params (msg : List Byte) (seed : Word32) : (evalHash msg seed s).params = s.params := rfl
@[simp] theorem evalHash_freeIndex (msg : List Byte) (seed : Word32) : (evalHash msg seed s).freeIndex = s.freeIndex + 5 := rfl
@[simp] theorem evalHash_input (msg : List Byte) (seed : Word32) : (evalHash msg seed s).input = s.input := rfl
@[simp] theorem evalHash_output (msg : List Byte) (seed : Word32) : (evalHash msg seed s).output = s.output := rfl

/-! ### One probe -/

@[simp] theorem probe_bitCount (msg : List Byte) (i : Nat) : (probe msg i s).bitCount = s.bitCount := rfl
@[simp] theorem probe_hashCount (msg : List Byte) (i : Nat) : (probe msg i s).hashCount = s.hashCount := rfl
@[simp] theorem probe_bits (msg : List Byte) (i : Nat) : (probe msg i s).bits = s.bits := rfl
@[simp] theorem probe_digest (msg : List Byte) (i : Nat) :
    (probe msg i s).digest = murmur128 s.params.seedExt msg (BitVec.ofNat 32 i) := by simp [probe]
@[simp] theorem probe_bitIndex (msg : List Byte) (i : Nat) :
    (probe msg i s).bitIndex = (probeAddr s.params s.bitCount msg i).bitIndex := by simp [probe, probeAddr]
@[simp] theorem probe_byteIndex (msg : List Byte) (i : Nat) :
    (probe msg i s).byteIndex = (probeAddr s.params s.bitCount msg i).byteIndex := by simp [probe, probeAddr]
@[simp] theorem probe_mask (msg : List Byte) (i : Nat) :
    (probe msg i s).mask = (probeAddr s.params s.bitCount msg i).mask := by simp [probe, probeAddr]
@[simp] theorem probe_result (msg : List Byte) (i : Nat) : (probe msg i s).result = s.result := rfl
@[simp] theorem probe_probes (msg : List Byte) (i : Nat) : (probe msg i s).probes = s.probes := rfl
@[simp] theorem probe_errFlags (msg : List Byte) (i : Nat) : (probe msg i s).errFlags = s.errFlags := rfl
@[simp] theorem probe_halt (msg : List Byte) (i : Nat) : (probe msg i s).halt = s.halt := rfl
@[simp] theorem probe_pkt (msg : List Byte) (i : Nat) : (probe msg i s).pkt = s.pkt := rfl
@[simp] theorem probe_hashRegs (msg : List Byte) (i : Nat) :
    (probe msg i s).hashRegs = freeHashRegs s.freeIndex := rfl
@[simp] theorem probe_params (msg : List Byte) (i : Nat) : (probe msg i s).params = s.params := rfl
@[simp] theorem probe_freeIndex (msg : List Byte) (i : Nat) : (probe msg i s).freeIndex = s.freeIndex + 5 := rfl
@[simp] theorem probe_input (msg : List Byte) (i : Nat) : (probe msg i s).input = s.input := rfl
@[simp] theorem probe_output (msg : List Byte) (i : Nat) : (probe msg i s).output = s.output := rfl

/-! ### The read-modify-write of an INSERT probe -/

@[simp] theorem setProbedBit_bitCount : (setProbedBit s).bitCount = s.bitCount := rfl
@[simp] theorem setProbedBit_hashCount : (setProbedBit s).hashCount = s.hashCount := rfl
@[simp] theorem setProbedBit_bits :
    (setProbedBit s).bits = s.bits.write s.byteIndex.toNat (memRead s.byteIndex.toNat s ||| s.mask) := rfl
@[simp] theorem setProbedBit_digest : (setProbedBit s).digest = s.digest := rfl
@[simp] theorem setProbedBit_bitIndex : (setProbedBit s).bitIndex = s.bitIndex := rfl
@[simp] theorem setProbedBit_byteIndex : (setProbedBit s).byteIndex = s.byteIndex := rfl
@[simp] theorem setProbedBit_mask : (setProbedBit s).mask = s.mask := rfl
@[simp] theorem setProbedBit_result : (setProbedBit s).result = s.result := rfl
@[simp] theorem setProbedBit_probes : (setProbedBit s).probes = s.probes := rfl
@[simp] theorem setProbedBit_errFlags : (setProbedBit s).errFlags = s.errFlags := rfl
@[simp] theorem setProbedBit_halt : (setProbedBit s).halt = s.halt := rfl
@[simp] theorem setProbedBit_pkt : (setProbedBit s).pkt = s.pkt := rfl
@[simp] theorem setProbedBit_hashRegs : (setProbedBit s).hashRegs = s.hashRegs := rfl
@[simp] theorem setProbedBit_params : (setProbedBit s).params = s.params := rfl
@[simp] theorem setProbedBit_freeIndex : (setProbedBit s).freeIndex = s.freeIndex := rfl
@[simp] theorem setProbedBit_input : (setProbedBit s).input = s.input := rfl
@[simp] theorem setProbedBit_output : (setProbedBit s).output = s.output := rfl

/-! ### What `memRead` sees -/

theorem memRead_eq (a : Nat) : memRead a s = s.bits.read a := rfl

theorem memRead_congr {s t : State} (h : t.bits = s.bits) (a : Nat) : memRead a t = memRead a s := by
  rw [memRead_eq, memRead_eq, h]

/-- A read after a write of one byte (R26, R28). -/
theorem memRead_memWrite (a b : Nat) (v : Byte) (h : s.bits.wf) :
    memRead b (memWrite a v s) = if a = b then v else memRead b s :=
  Memory.read_write s.bits a b v h

theorem memRead_clearArray (n a : Nat) : memRead a (clearArray n s) = if a < n then 0x00 else memRead a s :=
  Memory.read_clearBelow s.bits n a

theorem memRead_setProbedBit (a : Nat) (h : s.bits.wf) :
    memRead a (setProbedBit s) = if s.byteIndex.toNat = a then memRead a s ||| s.mask else memRead a s := by
  rw [setProbedBit, memRead_memWrite _ _ _ _ h]
  split
  · rename_i e
    rw [e]
  · rfl

theorem setProbedBit_wf (h : s.bits.wf) : (setProbedBit s).bits.wf := Memory.write_wf _ _ _ h

/-! ### Failing -/

/-- A status that does not halt sets its flag and sends its code, "and nothing else" (R100). -/
theorem raiseStatus_of_not_halts (e : Status) (h : haltsBlock e = false) :
    raiseStatus e s = { s with errFlags := s.errFlags ||| errFlag e, output := s.output ++ [statusCode e] } := by
  simp only [raiseStatus, respond, h, Bool.or_false]

end Sys2Proof.Machine
end

