-- ==== Sys2Proof/Laws/Filter.lean ====
section
/-! SUPPORT. The loops of `INSERT` and `CONTAINS` (42_filter.md R70, R71), once each: what they leave, and what they
leave alone. -/

namespace Sys2Proof.Machine

/-- Two states that differ at most in what probes write: `DIGEST`, the index registers, the hash registers and the
free values drawn. -/
abbrev SameButProbe (s t : State) : Prop :=
  t = { s with digest := t.digest, bitIndex := t.bitIndex, byteIndex := t.byteIndex, mask := t.mask,
               hashRegs := t.hashRegs, freeIndex := t.freeIndex }

theorem probe_same (msg : List Byte) (i : Nat) (s : State) : SameButProbe s (probe msg i s) := rfl

theorem SameButProbe.trans {s t u : State} (h : SameButProbe s t) (h' : SameButProbe t u) : SameButProbe s u := by
  unfold SameButProbe at *
  rw [h']
  rw [h]

/-- The registers hold what probe `i` of a message computes (R72). -/
abbrev HoldsProbe (t : State) (msg : List Byte) (i : Nat) : Prop :=
  t.digest = murmur128 t.params.seedExt msg (BitVec.ofNat 32 i) ∧
  t.bitIndex = (probeAddr t.params t.bitCount msg i).bitIndex ∧
  t.byteIndex = (probeAddr t.params t.bitCount msg i).byteIndex ∧
  t.mask = (probeAddr t.params t.bitCount msg i).mask

theorem probe_holds (msg : List Byte) (i : Nat) (s : State) : HoldsProbe (probe msg i s) msg i := by
  simp [HoldsProbe]

/-- Whether a probe finds its bit set depends on the parameters, the configuration and `BITS` alone. -/
theorem probedBit_probe (msg : List Byte) (i : Nat) (s : State) : probedBit (probe msg i s) = probeSet s msg i := by
  simp [probedBit, probeSet, memRead_eq]

theorem probeSet_congr {s t : State} (hp : t.params = s.params) (hc : t.bitCount = s.bitCount) (hb : t.bits = s.bits)
    (msg : List Byte) (i : Nat) : probeSet t msg i = probeSet s msg i := by
  simp only [probeSet, memRead_eq, hp, hc, hb]

/-- `CONTAINS`'s loop leaves everything alone but what probes write (R71: "Never writes `BITS`"). -/
theorem containsLoop_same (msg : List Byte) (n i : Nat) (s : State) :
    SameButProbe s (containsLoop msg n i s).state := by
  induction n generalizing i s with
  | zero => rfl
  | succ n ih =>
    rw [containsLoop]
    split
    · exact (probe_same msg i s).trans (ih (i + 1) (probe msg i s))
    · exact probe_same msg i s

@[simp] theorem containsLoop_bitCount (msg : List Byte) (n i : Nat) (s : State) :
    (containsLoop msg n i s).state.bitCount = s.bitCount := by
  have h := congrArg State.bitCount (containsLoop_same msg n i s)
  exact h
@[simp] theorem containsLoop_hashCount (msg : List Byte) (n i : Nat) (s : State) :
    (containsLoop msg n i s).state.hashCount = s.hashCount := by
  have h := congrArg State.hashCount (containsLoop_same msg n i s)
  exact h
@[simp] theorem containsLoop_bits (msg : List Byte) (n i : Nat) (s : State) :
    (containsLoop msg n i s).state.bits = s.bits := by
  have h := congrArg State.bits (containsLoop_same msg n i s)
  exact h
@[simp] theorem containsLoop_result (msg : List Byte) (n i : Nat) (s : State) :
    (containsLoop msg n i s).state.result = s.result := by
  have h := congrArg State.result (containsLoop_same msg n i s)
  exact h
@[simp] theorem containsLoop_probes (msg : List Byte) (n i : Nat) (s : State) :
    (containsLoop msg n i s).state.probes = s.probes := by
  have h := congrArg State.probes (containsLoop_same msg n i s)
  exact h
@[simp] theorem containsLoop_errFlags (msg : List Byte) (n i : Nat) (s : State) :
    (containsLoop msg n i s).state.errFlags = s.errFlags := by
  have h := congrArg State.errFlags (containsLoop_same msg n i s)
  exact h
@[simp] theorem containsLoop_halt (msg : List Byte) (n i : Nat) (s : State) :
    (containsLoop msg n i s).state.halt = s.halt := by
  have h := congrArg State.halt (containsLoop_same msg n i s)
  exact h
@[simp] theorem containsLoop_pkt (msg : List Byte) (n i : Nat) (s : State) :
    (containsLoop msg n i s).state.pkt = s.pkt := by
  have h := congrArg State.pkt (containsLoop_same msg n i s)
  exact h
@[simp] theorem containsLoop_params (msg : List Byte) (n i : Nat) (s : State) :
    (containsLoop msg n i s).state.params = s.params := by
  have h := congrArg State.params (containsLoop_same msg n i s)
  exact h
@[simp] theorem containsLoop_input (msg : List Byte) (n i : Nat) (s : State) :
    (containsLoop msg n i s).state.input = s.input := by
  have h := congrArg State.input (containsLoop_same msg n i s)
  exact h
@[simp] theorem containsLoop_output (msg : List Byte) (n i : Nat) (s : State) :
    (containsLoop msg n i s).state.output = s.output := by
  have h := congrArg State.output (containsLoop_same msg n i s)
  exact h

/-- `CONTAINS`'s loop (R71): all bits set and every probe made, or stopped right after the first unset one. -/
theorem containsLoop_spec (msg : List Byte) (n i : Nat) (s : State) :
    ((containsLoop msg n i s).answer = true ∧ (∀ j, i ≤ j → j < i + n → probeSet s msg j = true) ∧
      (containsLoop msg n i s).probes = i + n ∧
      (n = 0 → (containsLoop msg n i s).state = s) ∧
      (n ≠ 0 → HoldsProbe (containsLoop msg n i s).state msg (i + n - 1))) ∨
    ((containsLoop msg n i s).answer = false ∧ ∃ k, i ≤ k ∧ k < i + n ∧ probeSet s msg k = false ∧
      (∀ j, i ≤ j → j < k → probeSet s msg j = true) ∧
      (containsLoop msg n i s).probes = k + 1 ∧ HoldsProbe (containsLoop msg n i s).state msg k) := by
  induction n generalizing i s with
  | zero => exact .inl ⟨rfl, by omega, rfl, fun _ => rfl, by simp⟩
  | succ n ih =>
    rw [containsLoop]
    have hps : ∀ j, probeSet (probe msg i s) msg j = probeSet s msg j :=
      fun j => probeSet_congr (by simp) (by simp) (by simp) msg j
    simp only [probedBit_probe]
    by_cases hi : probeSet s msg i = true
    · rw [if_pos hi]
      rcases ih (i + 1) (probe msg i s) with ⟨ha, hall, hp, h0, h1⟩ | ⟨ha, k, h1, h2, h3, h4, h5, h6⟩
      · left
        refine ⟨ha, ?_, by omega, by omega, fun _ => ?_⟩
        · intro j hj hj'
          rcases Nat.eq_or_lt_of_le hj with rfl | hlt
          · exact hi
          · rw [← hps]
            exact hall j hlt (by omega)
        · by_cases hn : n = 0
          · rw [h0 hn, hn]
            exact probe_holds msg i s
          · have := h1 hn
            rwa [show i + 1 + n - 1 = i + (n + 1) - 1 by omega] at this
      · right
        refine ⟨ha, k, by omega, by omega, (hps k) ▸ h3, ?_, h5, h6⟩
        intro j hj hj'
        rcases Nat.eq_or_lt_of_le hj with rfl | hlt
        · exact hi
        · rw [← hps]
          exact h4 j hlt hj'
    · rw [if_neg hi]
      right
      exact ⟨rfl, i, le_refl i, by omega, by simpa using hi, by omega, rfl, probe_holds msg i s⟩

/-- The masks of probes `i` to `i + n - 1` that fall at address `a` or-ed into `v`. -/
def insertedFrom (p : Params) (bitCount : Word32) (msg : List Byte) (i n a : Nat) (v : Byte) : Byte :=
  (List.range' i n).foldl (fun v i =>
    if (probeAddr p bitCount msg i).byteIndex.toNat = a then v ||| (probeAddr p bitCount msg i).mask else v) v

theorem insertedByte_eq (p : Params) (bitCount : Word32) (msg : List Byte) (n a : Nat) (v : Byte) :
    insertedByte p bitCount msg n a v = insertedFrom p bitCount msg 0 n a v := by
  rw [insertedByte, insertedFrom, List.range_eq_range']

/-- Which bits `INSERT`'s loop leaves set in a byte: those set before and those its probes address (R70, R74). -/
theorem insertedFrom_getLsbD (p : Params) (bc : Word32) (msg : List Byte) (i n a k : Nat) (v : Byte) :
    (insertedFrom p bc msg i n a v).getLsbD k = true ↔ v.getLsbD k = true ∨ ∃ j, i ≤ j ∧ j < i + n ∧
      (probeAddr p bc msg j).byteIndex.toNat = a ∧ (probeAddr p bc msg j).mask.getLsbD k = true := by
  induction n generalizing i v with
  | zero =>
    simp only [insertedFrom, List.range'_zero, List.foldl_nil]
    exact ⟨.inl, fun h => h.elim id (fun ⟨_, h1, h2, _⟩ => absurd h2 (by omega))⟩
  | succ n ih =>
    have hn := ih (i + 1)
      (if (probeAddr p bc msg i).byteIndex.toNat = a then v ||| (probeAddr p bc msg i).mask else v)
    simp only [insertedFrom, List.range'_succ, List.foldl_cons] at hn ⊢
    rw [hn]
    constructor
    · rintro (h | ⟨j, h1, h2, h3⟩)
      · split at h
        · rename_i hh
          rw [BitVec.getLsbD_or, Bool.or_eq_true] at h
          exact h.imp id (fun h => ⟨i, le_refl _, by omega, hh, h⟩)
        · exact .inl h
      · exact .inr ⟨j, by omega, by omega, h3⟩
    · rintro (h | ⟨j, h1, h2, h3, h4⟩)
      · left
        split <;> simp [h]
      · rcases Nat.eq_or_lt_of_le h1 with rfl | hlt
        · left
          rw [if_pos h3, BitVec.getLsbD_or, h4, Bool.or_true]
        · exact .inr ⟨j, hlt, by omega, h3, h4⟩

/-- Two states that differ at most in what `INSERT`'s loop writes. -/
abbrev SameButInsert (s t : State) : Prop :=
  t = { s with bits := t.bits, digest := t.digest, bitIndex := t.bitIndex, byteIndex := t.byteIndex, mask := t.mask,
               hashRegs := t.hashRegs, freeIndex := t.freeIndex }

theorem SameButInsert.trans {s t u : State} (h : SameButInsert s t) (h' : SameButInsert t u) :
    SameButInsert s u := by
  unfold SameButInsert at *
  rw [h']
  rw [h]

theorem insertProbe_same (msg : List Byte) (i : Nat) (s : State) :
    SameButInsert s (setProbedBit (probe msg i s)) := rfl

/-- `INSERT`'s loop leaves everything alone but `BITS` and what probes write (R70). -/
theorem insertLoop_same (msg : List Byte) (n i : Nat) (s : State) : SameButInsert s (insertLoop msg n i s) := by
  induction n generalizing i s with
  | zero => rfl
  | succ n ih =>
    rw [insertLoop]
    exact (insertProbe_same msg i s).trans (ih (i + 1) _)

@[simp] theorem insertLoop_bitCount (msg : List Byte) (n i : Nat) (s : State) :
    (insertLoop msg n i s).bitCount = s.bitCount := by
  have h := congrArg State.bitCount (insertLoop_same msg n i s)
  exact h
@[simp] theorem insertLoop_hashCount (msg : List Byte) (n i : Nat) (s : State) :
    (insertLoop msg n i s).hashCount = s.hashCount := by
  have h := congrArg State.hashCount (insertLoop_same msg n i s)
  exact h
@[simp] theorem insertLoop_result (msg : List Byte) (n i : Nat) (s : State) :
    (insertLoop msg n i s).result = s.result := by
  have h := congrArg State.result (insertLoop_same msg n i s)
  exact h
@[simp] theorem insertLoop_probes (msg : List Byte) (n i : Nat) (s : State) :
    (insertLoop msg n i s).probes = s.probes := by
  have h := congrArg State.probes (insertLoop_same msg n i s)
  exact h
@[simp] theorem insertLoop_errFlags (msg : List Byte) (n i : Nat) (s : State) :
    (insertLoop msg n i s).errFlags = s.errFlags := by
  have h := congrArg State.errFlags (insertLoop_same msg n i s)
  exact h
@[simp] theorem insertLoop_halt (msg : List Byte) (n i : Nat) (s : State) :
    (insertLoop msg n i s).halt = s.halt := by
  have h := congrArg State.halt (insertLoop_same msg n i s)
  exact h
@[simp] theorem insertLoop_pkt (msg : List Byte) (n i : Nat) (s : State) :
    (insertLoop msg n i s).pkt = s.pkt := by
  have h := congrArg State.pkt (insertLoop_same msg n i s)
  exact h
@[simp] theorem insertLoop_params (msg : List Byte) (n i : Nat) (s : State) :
    (insertLoop msg n i s).params = s.params := by
  have h := congrArg State.params (insertLoop_same msg n i s)
  exact h
@[simp] theorem insertLoop_input (msg : List Byte) (n i : Nat) (s : State) :
    (insertLoop msg n i s).input = s.input := by
  have h := congrArg State.input (insertLoop_same msg n i s)
  exact h
@[simp] theorem insertLoop_output (msg : List Byte) (n i : Nat) (s : State) :
    (insertLoop msg n i s).output = s.output := by
  have h := congrArg State.output (insertLoop_same msg n i s)
  exact h

/-- `INSERT`'s loop keeps the canonical form of `BITS`. -/
theorem insertLoop_wf (msg : List Byte) (n i : Nat) (s : State) (h : s.bits.wf) :
    (insertLoop msg n i s).bits.wf := by
  induction n generalizing i s with
  | zero => exact h
  | succ n ih =>
    rw [insertLoop]
    exact ih (i + 1) _ (setProbedBit_wf _ h)

/-- `INSERT`'s loop or-s the masks of its probes into `BITS` and changes no other bit (R70, R31). -/
theorem memRead_insertLoop (msg : List Byte) (n i a : Nat) (s : State) (h : s.bits.wf) :
    memRead a (insertLoop msg n i s) = insertedFrom s.params s.bitCount msg i n a (memRead a s) := by
  induction n generalizing i s with
  | zero => rfl
  | succ n ih =>
    rw [insertLoop, ih (i + 1) _ (setProbedBit_wf (probe msg i s) h), memRead_setProbedBit (probe msg i s) a h]
    simp only [insertedFrom, List.range'_succ, List.foldl_cons, setProbedBit_params, setProbedBit_bitCount,
      probe_params, probe_bitCount, probe_byteIndex, probe_mask, memRead_congr (probe_bits s msg i)]
    rfl

/-- After at least one probe the registers hold the last one's values (R12, R13, R70). -/
theorem insertLoop_holds (msg : List Byte) (n i : Nat) (s : State) (hn : n ≠ 0) :
    HoldsProbe (insertLoop msg n i s) msg (i + n - 1) := by
  induction n generalizing i s with
  | zero => exact absurd rfl hn
  | succ n ih =>
    rw [insertLoop]
    by_cases h : n = 0
    · subst h
      exact probe_holds msg i s
    · have := ih (i + 1) (setProbedBit (probe msg i s)) h
      rwa [show i + 1 + n - 1 = i + (n + 1) - 1 by omega] at this

end Sys2Proof.Machine
end

