-- ==== Sys2Proof/Laws/Operands.lean ====
section
/-! SUPPORT. `BitAddress` (41_index.md R60 to R62), once: its three results in numbers, their bounds, and which bit a
mask selects. -/

namespace Sys2Proof.Machine

theorem toNat_pos_of_ne_zero {bc : Word32} (h : bc ≠ 0) : 0 < bc.toNat := by
  rcases Nat.eq_zero_or_pos bc.toNat with h' | h'
  · exact absurd (BitVec.eq_of_toNat_eq h') h
  · exact h'

/-- `bitIndex = V mod bitCount` (R60). -/
theorem bitAddress_bitIndex_toNat (d : Digest) {bc : Word32} (h : bc ≠ 0) :
    (bitAddress d bc).bitIndex.toNat = beNat d.toList % bc.toNat := by
  have h1 := Nat.mod_lt (beNat d.toList) (toNat_pos_of_ne_zero h)
  have h2 := bc.isLt
  show (BitVec.ofNat 32 (beNat d.toList % bc.toNat)).toNat = _
  rw [BitVec.toNat_ofNat, Nat.mod_eq_of_lt]
  omega

theorem bitAddress_bitIndex_lt (d : Digest) {bc : Word32} (h : bc ≠ 0) :
    (bitAddress d bc).bitIndex.toNat < bc.toNat := by
  rw [bitAddress_bitIndex_toNat d h]
  exact Nat.mod_lt _ (toNat_pos_of_ne_zero h)

/-- `byteIndex = bitIndex div 8` (R60). -/
theorem bitAddress_byteIndex (d : Digest) {bc : Word32} (h : bc ≠ 0) :
    (bitAddress d bc).byteIndex = BitVec.ofNat 32 ((bitAddress d bc).bitIndex.toNat / 8) := by
  rw [bitAddress_bitIndex_toNat d h]
  rfl

theorem bitAddress_byteIndex_toNat (d : Digest) {bc : Word32} (h : bc ≠ 0) :
    (bitAddress d bc).byteIndex.toNat = (bitAddress d bc).bitIndex.toNat / 8 := by
  have := (bitAddress d bc).bitIndex.isLt
  rw [bitAddress_byteIndex d h, BitVec.toNat_ofNat, Nat.mod_eq_of_lt]
  omega

/-- `byteIndex <= NBYTES - 1` (R27, R60). -/
theorem bitAddress_byteIndex_lt (d : Digest) {bc : Word32} (h : bc ≠ 0) :
    (bitAddress d bc).byteIndex.toNat < arrayBytes bc := by
  have := bitAddress_bitIndex_lt d h
  rw [bitAddress_byteIndex_toNat d h, arrayBytes]
  omega

/-- `mask = 0x80 >> (bitIndex mod 8)` (R60). -/
theorem bitAddress_mask (d : Digest) {bc : Word32} (h : bc ≠ 0) :
    (bitAddress d bc).mask = maskOf (bitAddress d bc).bitIndex.toNat := by
  rw [bitAddress_bitIndex_toNat d h]
  rfl

/-- A mask has one bit (R13, R62). -/
theorem maskOf_getLsbD (n k : Nat) (hk : k < 8) : (maskOf n).getLsbD k = decide (k = 7 - n % 8) := by
  have : n % 8 < 8 := Nat.mod_lt _ (by norm_num)
  rw [maskOf]
  generalize n % 8 = m at *
  interval_cases m <;> interval_cases k <;> decide

/-- More bits in a byte select no less. -/
theorem selectsBit_mono {x y m : Byte} (h : x &&& y = x) (hx : selectsBit x m = true) : selectsBit y m = true := by
  simp only [selectsBit, bne_iff_ne, ne_eq] at *
  intro hy
  apply hx
  rw [← h, BitVec.and_assoc, hy, BitVec.and_zero]

end Sys2Proof.Machine
end

