-- ==== Sys2Proof/Laws/Sizing.lean ====
section
/-! SUPPORT. `NEWFILTER` where it sends its one packet, the sizes exact arithmetic gives, and how bounds on
`ln(epsilon)` fix the sizes of an arithmetic that is near enough (R91). -/

namespace Sys2Proof.Machine

/-- With a rate and sizes in range `NEWFILTER` is the `CONFIG` of those sizes (R91). -/
theorem hostNewFilter_eq (ar : HostArith) (n : Int) (ε : Rat) (s : State) (bc hc : Nat) (h0 : 0 < ε) (h1 : ε < 1)
    (hb : sizedBitCount ar n ε = bc) (hh : sizedHashCount ar ε = hc) (hb1 : 1 ≤ bc) (hb2 : bc ≤ 2 ^ 31 - 1)
    (hh2 : hc ≤ 65535) :
    hostNewFilter ar n ε s = hostConfig (BitVec.ofNat 16 hc) (BitVec.ofNat 32 bc) .invalidParameter s := by
  rw [hostNewFilter, if_neg (by simp [h0, h1]), hb, hh, if_neg (by simp only [UnbuildableSizes]; omega)]
  simp

/-- Exact arithmetic sizes a filter as the relation says. -/
theorem sizingFormula_realArith (n : Int) (ε : Rat) :
    SizingFormula n ε (sizedBitCount realArith n ε) (sizedHashCount realArith ε) :=
  ⟨by simp [sizedBitCount, realArith, sq], by simp [sizedHashCount, realArith]⟩

/-- Exact arithmetic is within any bound. -/
theorem sizesWithin_realArith (δ : ℝ) (h : 0 ≤ δ) (n : Int) (ε : Rat) : SizesWithin δ realArith n ε :=
  ⟨_, _, by simpa using h, by simpa using h, (sizingFormula_realArith n ε).1, (sizingFormula_realArith n ε).2⟩

/-- A power of 2 below a power of `x` bounds `ln x` from below by `ln 2`. -/
theorem mul_log_two_le (a b : Nat) (x : ℝ) (hb : 0 < b) (h : (2 : ℝ) ^ a ≤ x ^ b) :
    (a : ℝ) / b * Real.log 2 ≤ Real.log x := by
  have := Real.log_le_log (by positivity) h
  rw [Real.log_pow, Real.log_pow] at this
  rw [div_mul_eq_mul_div, div_le_iff₀ (by exact_mod_cast hb)]
  linarith

/-- A power of 2 above a power of `x` bounds `ln x` from above by `ln 2`. -/
theorem log_le_mul_log_two (a b : Nat) (x : ℝ) (hx : 0 < x) (hb : 0 < b) (h : x ^ b ≤ (2 : ℝ) ^ a) :
    Real.log x ≤ (a : ℝ) / b * Real.log 2 := by
  have := Real.log_le_log (by positivity) h
  rw [Real.log_pow, Real.log_pow] at this
  rw [div_mul_eq_mul_div, le_div_iff₀ (by exact_mod_cast hb)]
  linarith

/-- Bounds `p` and `q` on `-(ln ε / ln 2)` that stay `δ` away from the next integers fix both sizes. -/
theorem sized_of_bounds (ar : HostArith) (δ p q : ℝ) (n : Int) (ε : Rat) (bc hc : Int) (hw : SizesWithin δ ar n ε)
    (hn : 0 ≤ (n : ℝ)) (hp : 0 ≤ p) (h1 : p * Real.log 2 ≤ -Real.log ε) (h2 : -Real.log ε ≤ q * Real.log 2)
    (b1 : (bc : ℝ) + δ ≤ n * p / 0.6931471808) (b2 : n * q / 0.6931471803 + δ < bc + 1) (c1 : (hc : ℝ) + δ ≤ p)
    (c2 : q + δ < hc + 1) : sizedBitCount ar n ε = bc ∧ sizedHashCount ar ε = hc := by
  obtain ⟨x, y, hx, hy, e1, e2⟩ := hw
  have l1 := Real.log_two_gt_d9
  have l2 := Real.log_two_lt_d9
  have lp : 0 < Real.log 2 := by linarith
  obtain ⟨r, hr⟩ : ∃ r, r = -Real.log ε / Real.log 2 := ⟨_, rfl⟩
  have r1 : p ≤ r := by rw [hr, le_div_iff₀ lp]; exact h1
  have r2 : r ≤ q := by rw [hr, div_le_iff₀ lp]; exact h2
  rw [show -((n : ℝ) * Real.log ε) / Real.log 2 ^ 2 = n * r / Real.log 2 by rw [hr]; field_simp, abs_le] at hx
  rw [show -(Real.log (ε : ℝ) / Real.log 2) = r by rw [hr, neg_div], abs_le] at hy
  have hr0 : 0 ≤ (n : ℝ) * r := mul_nonneg hn (hp.trans r1)
  have x1 : (n : ℝ) * p / 0.6931471808 ≤ n * r / Real.log 2 :=
    calc (n : ℝ) * p / 0.6931471808 ≤ n * r / 0.6931471808 := by gcongr
      _ ≤ n * r / Real.log 2 := by gcongr
  have x2 : (n : ℝ) * r / Real.log 2 ≤ n * q / 0.6931471803 := by
    have : 0 ≤ q := (hp.trans r1).trans r2
    gcongr
  rw [e1, e2, Int.floor_eq_iff, Int.floor_eq_iff]
  exact ⟨⟨by linarith, by linarith⟩, by linarith, by linarith⟩

end Sys2Proof.Machine
end

