-- ==== Sys2Proof/Laws/Step.lean ====
section
/-! SUPPORT. Everything a command can do, everything a step can do, each once; and running steps. -/

namespace Sys2Proof.Machine

/-! ### Commands -/

theorem exec_hash (seed : Word32) (msg : List Byte) (s : State) :
    exec (.hash seed msg) s =
      .next (respondOk (murmur128 s.params.seedExt msg seed).toList (evalHash msg seed s)) := by
  show Host.Outcome.next (respondOk (evalHash msg seed s).digest.toList (evalHash msg seed s)) = _
  rw [evalHash_digest]

theorem exec_index (d : Digest) (s : State) (h : s.bitCount ≠ 0) :
    exec (.index d) s = .next (respondOk (bytesBe32 (bitAddress d s.bitCount).bitIndex)
      (writeIndex (bitAddress d s.bitCount) s)) := by
  simp only [exec, execIndex, if_neg h]

theorem exec_insert (msg : List Byte) (s : State) (h : s.bitCount ≠ 0) :
    exec (.insert msg) s =
      .next (respondOk [] (writeProbes s.hashCount (insertLoop msg s.hashCount.toNat 0 s))) := by
  simp only [exec, execInsert, if_neg h]

theorem exec_contains (msg : List Byte) (s : State) (h : s.bitCount ≠ 0) :
    exec (.contains msg) s =
      .next (respondOk [answerByte (containsLoop msg s.hashCount.toNat 0 s).answer]
        (writeProbes (BitVec.ofNat 16 (containsLoop msg s.hashCount.toNat 0 s).probes)
          (writeResult (containsLoop msg s.hashCount.toNat 0 s).answer
            (containsLoop msg s.hashCount.toNat 0 s).state))) := by
  simp only [exec, execContains, if_neg h]

/-- What `CONFIG` refuses, in numbers (R80). -/
theorem configRefused_iff (bc : Word32) (s : State) :
    configRefused bc s = true ↔
      bc = 0 ∨ bc.toNat ≥ 2 ^ 31 ∨ (bc.toNat + 7) / 8 > s.params.arrayBytesMax := by
  simp only [configRefused, Bool.or_eq_true, beq_iff_eq, decide_eq_true_eq, BitVec.msb_eq_decide, arrayBytes]
  simp only [show 32 - 1 = 31 from rfl, ge_iff_le, gt_iff_lt, decide_eq_true_eq]
  tauto

theorem exec_config (hc : Word16) (bc : Word32) (s : State) (h : ¬ configRefused bc s = true) :
    exec (.config hc bc) s =
      .next (respondOk [] (clearArray (arrayBytes bc) (writeConfig hc bc s))) := by
  simp only [exec, execConfig, if_neg h]

theorem exec_config_refused (hc : Word16) (bc : Word32) (s : State) (h : configRefused bc s = true) :
    exec (.config hc bc) s = .next (raiseStatus .eCfg s) := by
  simp only [exec, execConfig, if_pos h]

theorem exec_rdarr (addr : Word32) (s : State) (h : s.bitCount ≠ 0) (h' : addr.toNat < nbytes s) :
    exec (.rdarr addr) s = .next (respondOk [memRead addr.toNat s] s) := by
  simp only [exec, execRdarr, if_neg h, if_neg (Nat.not_le.mpr h')]

theorem exec_wrarr (addr : Word32) (data : Byte) (s : State) (h : s.bitCount ≠ 0) (h' : addr.toNat < nbytes s) :
    exec (.wrarr addr data) s = .next (respondOk [] (memWrite addr.toNat data s)) := by
  simp only [exec, execWrarr, if_neg h, if_neg (Nat.not_le.mpr h')]

theorem exec_rdreg (regno : Byte) (r : Reg) (s : State) (h : regOf regno = some r) :
    exec (.rdreg regno) s = .next (respondOk (bytesBe32 (regValue r s)) s) := by
  simp only [exec, execRdreg, h]

/-- Everything one command can do (R58, R64, R70, R71, R80 to R83, R100): fail, or its own effect. -/
theorem exec_cases (i : Instr) (s : State) :
    (∃ e, (e = .eNocfg ∨ e = .eCfg ∨ e = .eAddr ∨ e = .eReg) ∧ exec i s = .next (raiseStatus e s)) ∨
    (∃ seed msg, i = .hash seed msg ∧ exec i s =
      .next (respondOk (murmur128 s.params.seedExt msg seed).toList (evalHash msg seed s))) ∨
    (∃ d, i = .index d ∧ s.bitCount ≠ 0 ∧ exec i s =
      .next (respondOk (bytesBe32 (bitAddress d s.bitCount).bitIndex) (writeIndex (bitAddress d s.bitCount) s))) ∨
    (∃ msg, i = .insert msg ∧ s.bitCount ≠ 0 ∧ exec i s =
      .next (respondOk [] (writeProbes s.hashCount (insertLoop msg s.hashCount.toNat 0 s)))) ∨
    (∃ msg r, i = .contains msg ∧ s.bitCount ≠ 0 ∧ r = containsLoop msg s.hashCount.toNat 0 s ∧ exec i s =
      .next (respondOk [answerByte r.answer]
        (writeProbes (BitVec.ofNat 16 r.probes) (writeResult r.answer r.state)))) ∨
    (∃ hc bc, i = .config hc bc ∧ bc ≠ 0 ∧ bc.toNat < 2 ^ 31 ∧ arrayBytes bc ≤ s.params.arrayBytesMax ∧ exec i s =
      .next (respondOk [] (clearArray (arrayBytes bc) (writeConfig hc bc s)))) ∨
    (∃ addr, i = .rdarr addr ∧ s.bitCount ≠ 0 ∧ addr.toNat < nbytes s ∧ exec i s =
      .next (respondOk [memRead addr.toNat s] s)) ∨
    (∃ addr data, i = .wrarr addr data ∧ s.bitCount ≠ 0 ∧ addr.toNat < nbytes s ∧ exec i s =
      .next (respondOk [] (memWrite addr.toNat data s))) ∨
    (∃ regno r, i = .rdreg regno ∧ regOf regno = some r ∧ exec i s =
      .next (respondOk (bytesBe32 (regValue r s)) s)) := by
  by_cases hz : s.bitCount = 0
  · cases i with
    | hash seed msg => exact .inr (.inl ⟨seed, msg, rfl, exec_hash seed msg s⟩)
    | index d => exact .inl ⟨.eNocfg, .inl rfl, by simp only [exec, execIndex, if_pos hz]⟩
    | insert msg => exact .inl ⟨.eNocfg, .inl rfl, by simp only [exec, execInsert, if_pos hz]⟩
    | contains msg => exact .inl ⟨.eNocfg, .inl rfl, by simp only [exec, execContains, if_pos hz]⟩
    | config hc bc =>
      by_cases hr : configRefused bc s = true
      · exact .inl ⟨.eCfg, by simp, exec_config_refused hc bc s hr⟩
      · have h := hr
        rw [configRefused_iff] at h
        push Not at h
        exact .inr (.inr (.inr (.inr (.inr (.inl ⟨hc, bc, rfl, h.1, h.2.1, h.2.2, exec_config hc bc s hr⟩)))))
    | rdarr addr => exact .inl ⟨.eNocfg, .inl rfl, by simp only [exec, execRdarr, if_pos hz]⟩
    | wrarr addr data => exact .inl ⟨.eNocfg, .inl rfl, by simp only [exec, execWrarr, if_pos hz]⟩
    | rdreg regno =>
      cases hr : regOf regno with
      | none => exact .inl ⟨.eReg, by simp, by simp only [exec, execRdreg, hr]⟩
      | some r => exact .inr (.inr (.inr (.inr (.inr (.inr (.inr (.inr ⟨regno, r, rfl, hr, exec_rdreg regno r s hr⟩)))))))
  · cases i with
    | hash seed msg => exact .inr (.inl ⟨seed, msg, rfl, exec_hash seed msg s⟩)
    | index d => exact .inr (.inr (.inl ⟨d, rfl, hz, exec_index d s hz⟩))
    | insert msg => exact .inr (.inr (.inr (.inl ⟨msg, rfl, hz, exec_insert msg s hz⟩)))
    | contains msg => exact .inr (.inr (.inr (.inr (.inl ⟨msg, _, rfl, hz, rfl, exec_contains msg s hz⟩))))
    | config hc bc =>
      by_cases hr : configRefused bc s = true
      · exact .inl ⟨.eCfg, by simp, exec_config_refused hc bc s hr⟩
      · have h := hr
        rw [configRefused_iff] at h
        push Not at h
        exact .inr (.inr (.inr (.inr (.inr (.inl ⟨hc, bc, rfl, h.1, h.2.1, h.2.2, exec_config hc bc s hr⟩)))))
    | rdarr addr =>
      by_cases ha : addr.toNat < nbytes s
      · exact .inr (.inr (.inr (.inr (.inr (.inr (.inl ⟨addr, rfl, hz, ha, exec_rdarr addr s hz ha⟩))))))
      · exact .inl ⟨.eAddr, by simp, by simp only [exec, execRdarr, if_neg hz, if_pos (Nat.not_lt.mp ha)]⟩
    | wrarr addr data =>
      by_cases ha : addr.toNat < nbytes s
      · exact .inr (.inr (.inr (.inr (.inr (.inr (.inr (.inl
          ⟨addr, data, rfl, hz, ha, exec_wrarr addr data s hz ha⟩)))))))
      · exact .inl ⟨.eAddr, by simp, by simp only [exec, execWrarr, if_neg hz, if_pos (Nat.not_lt.mp ha)]⟩
    | rdreg regno =>
      cases hr : regOf regno with
      | none => exact .inl ⟨.eReg, by simp, by simp only [exec, execRdreg, hr]⟩
      | some r => exact .inr (.inr (.inr (.inr (.inr (.inr (.inr (.inr ⟨regno, r, rfl, hr, exec_rdreg regno r s hr⟩)))))))

/-- A command on a complete packet always finishes (R116): it gives a next state. -/
theorem exec_next (i : Instr) (s : State) : ∃ t, exec i s = .next t := by
  rcases exec_cases i s with ⟨_, _, h⟩ | ⟨_, _, _, h⟩ | ⟨_, _, _, h⟩ | ⟨_, _, _, h⟩ | ⟨_, _, _, _, _, h⟩ |
    ⟨_, _, _, _, _, _, h⟩ | ⟨_, _, _, _, h⟩ | ⟨_, _, _, _, _, h⟩ | ⟨_, _, _, _, h⟩ <;> exact ⟨_, h⟩

/-! ### Steps -/

theorem step_nil (s : State) (h : s.input = []) : step s = .fault (waitFault s) := by
  simp only [step, portStep, h]

theorem step_reset (s : State) (more : List HostEvent) (h : s.input = .reset :: more) :
    step s = .next (resetBlock { s with input := more }) := by
  simp only [step, portStep, h]

theorem step_halted (s : State) (b : Byte) (more : List HostEvent) (h : s.input = .byte b :: more)
    (hh : s.halt = true) : step s = .next { s with input := more } := by
  simp only [step, portStep, h, portByte, hh, if_true]

theorem step_byte (s : State) (b : Byte) (more : List HostEvent) (h : s.input = .byte b :: more)
    (hh : s.halt = false) : step s = acceptByte b { s with input := more } := by
  simp only [step, portStep, h, portByte, hh, Bool.false_eq_true, if_false]

/-- Everything one step can do: wait, reset, discard a byte, take a byte into `PKT`, fail on an illegal opcode, or
execute the command its byte completes. -/
theorem step_cases (s : State) :
    (s.input = [] ∧ step s = .fault (waitFault s)) ∨
    (∃ more, s.input = .reset :: more ∧ step s = .next (resetBlock { s with input := more })) ∨
    (∃ b more, s.input = .byte b :: more ∧ s.halt = true ∧ step s = .next { s with input := more }) ∨
    (∃ b more, s.input = .byte b :: more ∧ s.halt = false ∧ decode (s.pkt ++ [b]) = .incomplete ∧
      step s = .next { s with input := more, pkt := s.pkt ++ [b] }) ∨
    (∃ b more rest, s.input = .byte b :: more ∧ s.halt = false ∧ decode (s.pkt ++ [b]) = .illegal rest ∧
      step s = .next (raiseStatus .eIllegal { s with input := more, pkt := rest })) ∨
    (∃ b more i rest, s.input = .byte b :: more ∧ s.halt = false ∧ decode (s.pkt ++ [b]) = .packet i rest ∧
      step s = exec i { s with input := more, pkt := rest }) := by
  cases hi : s.input with
  | nil => exact .inl ⟨rfl, step_nil s hi⟩
  | cons e more =>
    cases e with
    | reset => exact .inr (.inl ⟨more, rfl, step_reset s more hi⟩)
    | byte b =>
      rcases Bool.eq_false_or_eq_true s.halt with hh | hh
      · exact .inr (.inr (.inl ⟨b, more, rfl, hh, step_halted s b more hi hh⟩))
      · have hs := step_byte s b more hi hh
        cases hd : decode (s.pkt ++ [b]) with
        | incomplete =>
          exact .inr (.inr (.inr (.inl ⟨b, more, rfl, hh, hd, by rw [hs]; simp only [acceptByte, hd]⟩)))
        | illegal rest =>
          exact .inr (.inr (.inr (.inr (.inl ⟨b, more, rest, rfl, hh, hd, by rw [hs]; simp only [acceptByte, hd]⟩))))
        | packet i rest =>
          exact .inr (.inr (.inr (.inr (.inr
            ⟨b, more, i, rest, rfl, hh, hd, by rw [hs]; simp only [acceptByte, hd]⟩))))

/-! ### Runs -/

/-- `runSteps` is the host interface's run of this machine. -/
theorem core_run_eq (k : Nat) (s : State) : Host.Core.run Sys2Proof.core k s = runSteps k s := by
  induction k generalizing s with
  | zero => rfl
  | succ k ih =>
    have hs : Sys2Proof.core.step s = step s := rfl
    simp only [Host.Core.run, runSteps, hs]
    cases step s with
    | next t => exact ih t
    | fault f => rfl
    | refused r => rfl

@[simp] theorem runSteps_zero (s : State) : runSteps 0 s = .next s := rfl

theorem runSteps_succ_of_next {s t : State} (k : Nat) (h : step s = .next t) :
    runSteps (k + 1) s = runSteps k t := by
  simp only [runSteps, h]

@[simp] theorem bytesIn_nil : bytesIn [] = [] := rfl

@[simp] theorem bytesIn_cons (b : Byte) (l : List Byte) : bytesIn (b :: l) = .byte b :: bytesIn l := rfl

theorem bytesIn_append (a b : List Byte) : bytesIn (a ++ b) = bytesIn a ++ bytesIn b := List.map_append

end Sys2Proof.Machine
end

