-- ==== Sys2Proof/Tests/Slice0.lean ====
section
/-! SUPPORT. The model's own tests, expected results from spec/95_test_vectors.md and the examples of the rules, and a
witness for every statement of Obligations.lean that has hypotheses. -/

namespace Sys2Proof.Tests

open Sys2Proof Sys2Proof.Machine

/-! ### Well-formedness -/

theorem test_wf_hash : (Instr.hash 5 [0x61]).WellFormed := by
  show [0x61#8].length < 2 ^ 32
  decide

/-- A message one byte too long has no packet (R6, R23). -/
theorem test_message_too_long : ¬ MessageFits (List.replicate (2 ^ 32) 0) := by
  rw [MessageFits, List.length_replicate]
  exact Nat.lt_irrefl _

theorem test_illformed_hash : ¬ (Instr.hash 0 (List.replicate (2 ^ 32) 0)).WellFormed := test_message_too_long
theorem test_illformed_insert : ¬ (Instr.insert (List.replicate (2 ^ 32) 0)).WellFormed := test_message_too_long
theorem test_illformed_contains : ¬ (Instr.contains (List.replicate (2 ^ 32) 0)).WellFormed := test_message_too_long

/-- The longest message has one. -/
theorem test_wf_longest : (Instr.insert (List.replicate (2 ^ 32 - 1) 0)).WellFormed := by
  show (List.replicate (2 ^ 32 - 1) (0 : Byte)).length < 2 ^ 32
  rw [List.length_replicate]
  norm_num

/-! ### Packets written out from the formats of R35 -/

/-- R58's example. -/
theorem test_decode_hash : decode [0x01, 0x00, 0x00, 0x00, 0x00, 0x00, 0x00, 0x00, 0x04, 0x43, 0x43, 0x42, 0x46] =
    .packet (.hash 0 [0x43, 0x43, 0x42, 0x46]) [] := by decide
/-- The seed's byte 1 holds bits 31:24 (R35). -/
theorem test_decode_hash_seed : decode [0x01, 0x80, 0x00, 0x01, 0x02, 0x00, 0x00, 0x00, 0x00] =
    .packet (.hash 0x80000102 []) [] := by decide
/-- R64's example. -/
theorem test_decode_index :
    decode [0x02, 0x05, 0x0f, 0x8d, 0x3c, 0xcb, 0x4a, 0xdf, 0xae, 0xd5, 0x1c, 0x9c, 0xca, 0x61, 0x42, 0x47, 0x96] =
    .packet (.index #v[0x05, 0x0f, 0x8d, 0x3c, 0xcb, 0x4a, 0xdf, 0xae, 0xd5, 0x1c, 0x9c, 0xca, 0x61, 0x42, 0x47,
      0x96]) [] := by decide
/-- R70's example, and R41's. -/
theorem test_decode_insert : decode [0x03, 0x00, 0x00, 0x00, 0x01, 0x61] = .packet (.insert [0x61]) [] := by decide
/-- R71's example. -/
theorem test_decode_contains : decode [0x04, 0x00, 0x00, 0x00, 0x01, 0x65] = .packet (.contains [0x65]) [] := by
  decide
/-- R80's example. -/
theorem test_decode_config : decode [0x05, 0x00, 0x06, 0x00, 0x00, 0x25, 0x71] = .packet (.config 6 9585) [] := by
  decide
/-- R81's example, with the next packet's first byte behind it. -/
theorem test_decode_rdarr : decode [0x06, 0x00, 0x00, 0x00, 0x02, 0x08] = .packet (.rdarr 2) [0x08] := by decide
/-- R82's example. -/
theorem test_decode_wrarr : decode [0x07, 0x00, 0x00, 0x00, 0x01, 0x07] = .packet (.wrarr 1 0x07) [] := by decide
/-- R83's example. -/
theorem test_decode_rdreg : decode [0x08, 0x03] = .packet (.rdreg 0x03) [] := by decide
/-- R38: `0x00` and the edges of `0x09 .. 0xFF`. -/
theorem test_decode_illegal : decode [0x00, 0x08] = .illegal [0x08] ∧ decode [0x09] = .illegal [] ∧
    decode [0xff] = .illegal [] := by decide
/-- R33: format S is incomplete before its 9th byte, and before the last byte of its payload. -/
theorem test_decode_incomplete : decode [] = .incomplete ∧ decode [0x01, 0, 0, 0, 0, 0, 0, 0] = .incomplete ∧
    decode [0x01, 0, 0, 0, 0, 0, 0, 0, 1] = .incomplete := by decide
/-- spec/opcode_table.json's numbering: the opcode in bits 7:0, `regno` in bits 15:8. -/
theorem test_table_word : decodeTableWord 16 0x0b08 = some (.rdreg 0x0b) := by decide

/-! ### One command each, on small states -/

/-- A filter of 3 hashes and 16 bits with these two bytes (section 3.3 of 95_test_vectors.md). -/
def smallFilter (b0 b1 : Byte) : State :=
  { State.reset with
    bitCount := 16, hashCount := 3, bits := Memory.write (Memory.write [] 0 b0) 1 b1 }

/-- The state after a command. -/
def after (i : Instr) (s : State) : State :=
  match exec i s with
  | .next t => t
  | .fault _ => s
  | .refused _ => s

/-- 3.2: `HASH 0, "CCBF"` on an unconfigured block. -/
theorem test_hash : (after (.hash 0 [0x43, 0x43, 0x42, 0x46]) State.reset).output =
    [0x00, 0x05, 0x0f, 0x8d, 0x3c, 0xcb, 0x4a, 0xdf, 0xae, 0xd5, 0x1c, 0x9c, 0xca, 0x61, 0x42, 0x47, 0x96] := by
  decide +kernel
/-- R59 (c): the empty message with seed 1. -/
theorem test_hash_seed : (after (.hash 1 []) State.reset).digest.toList =
    [0xb5, 0x5c, 0xff, 0x6e, 0xe5, 0xab, 0x10, 0x46, 0x83, 0x35, 0xf8, 0x78, 0xaa, 0x2d, 0x62, 0x51] := by
  decide +kernel
/-- R55: `fmix64(1)`. -/
theorem test_fmix64 : fmix64 1 = 0xb456bcfc34c2cb2c := by decide
/-- R52's example: `H1`, `H2` after the message block `00 01 .. 0f`. -/
theorem test_block_step :
    (blockStep (Claims.countingBytes 16) { h1 := 0, h2 := 0, k1 := 0, k2 := 0, len := 16 }).h1 = 0xdcac505ea5c458df ∧
    (blockStep (Claims.countingBytes 16) { h1 := 0, h2 := 0, k1 := 0, k2 := 0, len := 16 }).h2 = 0x72927c4be244042d := by
  decide +kernel
/-- R64's example. -/
theorem test_index : (fun t => (t.output, t.bitIndex, t.byteIndex, t.mask))
    (after (.index #v[0x05, 0x0f, 0x8d, 0x3c, 0xcb, 0x4a, 0xdf, 0xae, 0xd5, 0x1c, 0x9c, 0xca, 0x61, 0x42, 0x47, 0x96])
      { State.reset with bitCount := 9585 }) = ([0x00, 0x00, 0x00, 0x1f, 0xc5], 8133, 1016, 0x04) := by decide +kernel
/-- 3.2: `INDEX` on an unconfigured block. -/
theorem test_index_nocfg : (after (.index (Vector.replicate 16 0)) State.reset).output = [0x02] := by decide
/-- R70's example: `"a"` probes bits 6, 11, 11. -/
theorem test_insert : (fun t => (t.output, t.bits, t.probes)) (after (.insert [0x61]) (smallFilter 0x00 0x00)) =
    ([0x00], [(0, 0x02), (1, 0x10)], 3) := by decide +kernel
/-- 3.3: `"b"` after `"a"`. -/
theorem test_insert_again : (after (.insert [0x62]) (smallFilter 0x02 0x10)).bits = [(0, 0x12), (1, 0x70)] := by
  decide +kernel
/-- R71's example: `"e"` fails at its second probe, bit 13. -/
theorem test_contains_false : (fun t => (t.output, t.result, t.probes, t.bitIndex))
    (after (.contains [0x65]) (smallFilter 0x12 0x70)) = ([0x00, 0x00], false, 2, 13) := by decide +kernel
/-- R71's example: `"("` is a false positive. -/
theorem test_contains_true : (fun t => (t.output, t.result, t.probes, t.bitIndex))
    (after (.contains [0x28]) (smallFilter 0x12 0x70)) = ([0x00, 0x01], true, 3, 9) := by decide +kernel
/-- R80: a second `CONFIG` empties the filter and sets the new sizes. -/
theorem test_config : (fun t => (t.output, t.bits, t.hashCount, t.bitCount))
    (after (.config 6 13) (smallFilter 0x12 0x70)) = ([0x00], [], 6, 13) := by decide
/-- R80: `CONFIG 6, 0x80000000` responds `03` and leaves the filter. -/
theorem test_config_refused : (fun t => (t.output, t.bits, t.errFlags, t.bitCount))
    (after (.config 6 0x80000000) (smallFilter 0x12 0x70)) =
    ([0x03], [(0, 0x12), (1, 0x70)], 0x04, 16) := by decide
/-- R81's example. -/
theorem test_rdarr : (after (.rdarr 1) (smallFilter 0x12 0x70)).output = [0x00, 0x70] := by decide
/-- R81's example, out of range. -/
theorem test_rdarr_addr : (after (.rdarr 2) (smallFilter 0x12 0x70)).output = [0x04] := by decide
/-- R82: the whole byte is replaced, not or-ed. -/
theorem test_wrarr : (after (.wrarr 1 0x07) (smallFilter 0x12 0x70)).bits = [(0, 0x12), (1, 0x07)] := by decide
/-- R105: `WRARR` on an unconfigured block is `E_NOCFG`, not `E_ADDR`. -/
theorem test_wrarr_nocfg : (fun t => (t.output, t.errFlags)) (after (.wrarr 0 0) State.reset) = ([0x02], 0x02) := by
  decide
/-- 3.3: `STATUS` with `PROBES = 2`, `CFGD = 1`, `RESULT = 0`. -/
theorem test_rdreg : (after (.rdreg 0x00) { smallFilter 0 0 with probes := 2 }).output =
    [0x00, 0x00, 0x02, 0x00, 0x02] := by decide
/-- R83: `RDREG 7`. -/
theorem test_rdreg_reserved : (after (.rdreg 0x07) State.reset).output = [0x05] := by decide
/-- R101: after reset the stream `09` produces the response `01` and halts. -/
theorem test_illegal : (match step (hostDoes (bytesIn [0x09]) State.reset) with
    | .next t => some (t.output, t.halt, t.errFlags)
    | _ => none) = some ([0x01], true, 0x01) := by decide
/-- 95 section 2.6, 3.8: images a `LOAD` refuses, and the one it takes. -/
theorem test_image :
    checkImage [0x43, 0x43, 0x42, 0x47, 0, 1, 0, 3, 0, 0, 0, 0x10, 0x12, 0x70] = .error .invalidFormat ∧
    checkImage [0x43, 0x43, 0x42, 0x46, 0, 2, 0, 3, 0, 0, 0, 0x10, 0x12, 0x70] = .error (.unsupportedVersion 2) ∧
    checkImage [0x43, 0x43, 0x42, 0x46, 0, 1, 0, 3, 0, 0, 0, 0x10, 0x12] = .error .invalidFormat ∧
    checkImage [0x43, 0x43, 0x42, 0x46, 0, 1, 0, 3, 0, 0, 0, 0x10, 0x12, 0x70] =
      .ok { hashCount := 3, bitCount := 16, array := [0x12, 0x70] } := by decide

/-! ### The textual notation (R40, R41) -/

theorem test_asm_insert : assembleLine "INSERT \"hello\"".toList =
    some [0x03, 0x00, 0x00, 0x00, 0x05, 0x68, 0x65, 0x6c, 0x6c, 0x6f] := by decide
theorem test_asm_config : assembleLine "CONFIG 6, -2147483648 ; refused".toList =
    some [0x05, 0x00, 0x06, 0x80, 0x00, 0x00, 0x00] := by decide
theorem test_asm_hash : assembleLine "HASH     0, x\"0009ff\"".toList =
    some [0x01, 0, 0, 0, 0, 0, 0, 0, 3, 0x00, 0x09, 0xff] := by decide
theorem test_asm_rdreg : assembleLine "RDREG NBYTES".toList = some [0x08, 0x03] := by decide
theorem test_asm_raw : assembleLine ".byte 0x09".toList = some [0x09] := by decide

/-! ### Witnesses: a state and operands that meet every hypothesis of a statement, clause by clause -/

/-- The filter of section 3.3 with `"a"` and `"b"` in it. -/
def filterAB : State := smallFilter 0x12 0x70

theorem filterAB_inv : filterAB.Inv :=
  ⟨by decide, by decide, by decide, by decide, by decide, by decide, by decide, by decide, by decide⟩

theorem filterAB_idle : PortIdle filterAB := by decide

theorem filterAB_configured : filterAB.bitCount ≠ 0 := by decide

theorem reset_idle : PortIdle State.reset := by decide

theorem reset_inv : State.reset.Inv :=
  ⟨by decide, by decide, by decide, by decide, by decide, by decide, by decide, by decide, by decide⟩

theorem witness_DecodeOfEncode : (Instr.hash 5 [0x61]).WellFormed := test_wf_hash

theorem witness_EncodeOfDecode : decode [0x07, 0, 0, 0, 1, 7, 0x08] = .packet (.wrarr 1 7) [0x08] := by decide

/-- The other clauses fix the first byte alone; here both lengths at which those of formats S and M turn. -/
theorem witness_PacketLengthsAreTheTables :
    Claims.IllegalOpcode 0x00 ∧ Claims.IllegalOpcode 0x09 ∧ Claims.IllegalOpcode 0xff ∧
    (0x01#8 :: List.replicate 7 0#8).length < 9 ∧ ¬ (0x01#8 :: List.replicate 8 0#8).length < 9 ∧
    (0x03#8 :: List.replicate 3 0#8).length < 5 ∧ ¬ (0x04#8 :: List.replicate 4 0#8).length < 5 := by decide

theorem witness_PrefixesAreIncomplete :
    (Instr.wrarr 1 7).WellFormed ∧ encode (.wrarr 1 7) = [0x07, 0, 0, 0, 1] ++ [7] ∧ [7#8] ≠ [] ∧
    encode (.wrarr 1 7) = [] ++ [0x07, 0, 0, 0, 1, 7] := ⟨trivial, by decide, by decide, by decide⟩

theorem witness_StepRunsDecodedCommand :
    (fun s : State => s.halt = false ∧ s.input = .byte 0x00 :: [.reset] ∧
      decode (s.pkt ++ [0x00]) = .packet (.rdreg 0x00) [])
    { State.reset with pkt := [0x08], input := [.byte 0x00, .reset] } := by decide

theorem witness_FetchWordRunsNext :
    decodeTableWord 8 0x05 = some (.config 0 0) ∧ decodeTableWord 16 0x0b08 = some (.rdreg 0x0b) := by decide

theorem witness_BytesRefineCommands :
    (Instr.insert [0x61]).WellFormed ∧
    (fun s : State => s.halt = false ∧ s.pkt = [] ∧ s.input = bytesIn (encode (.insert [0x61])) ++ [.reset])
      { State.reset with input := bytesIn (encode (.insert [0x61])) ++ [.reset] } :=
  ⟨by show [0x61#8].length < 2 ^ 32; decide, by decide⟩

theorem witness_StreamRefinesCommandSequence :
    (∀ i ∈ [Instr.config 1 8, Instr.rdarr 0], i.WellFormed) ∧ PortIdle State.reset := by
  refine ⟨?_, reset_idle⟩
  intro i hi
  rcases List.mem_cons.mp hi with rfl | hi
  · trivial
  · rw [List.mem_singleton.mp hi]
    trivial

theorem witness_DeliveryInPieces : State.reset.input = [] := rfl

theorem witness_IncompletePacketWaits :
    (Instr.rdreg 0).WellFormed ∧ PortIdle filterAB ∧ encode (.rdreg 0) = [0x08] ++ [0x00] ∧
    [0x08#8] ≠ [] ∧ [0x00#8] ≠ [] := ⟨trivial, filterAB_idle, by decide, by decide, by decide⟩

theorem witness_IllegalOpcodeFails :
    (fun s : State => s.halt = false ∧ s.pkt = [] ∧ s.input = .byte 0xff :: [])
      { State.reset with input := [.byte 0xff] } ∧
    Claims.IllegalOpcode 0xff ∧ ¬ Claims.IllegalOpcode 0x08 ∧
    State.Inv { State.reset with pkt := [0x08] } ∧ ({ State.reset with pkt := [0x08] } : State).pkt ≠ [] ∧
    decode (({ State.reset with pkt := [0x08] } : State).pkt ++ [0xff]) = .packet (.rdreg 0xff) [] :=
  ⟨by decide, by decide, by decide,
   ⟨by decide, by decide, by decide, by decide, by decide, by decide, by decide, by decide, by decide⟩, by decide,
   by decide⟩

theorem witness_HaltHasOneCause : ∃ t, State.Inv { State.reset with input := [.byte 0x00] } ∧
    step { State.reset with input := [.byte 0x00] } = .next t ∧ State.reset.halt = false ∧ t.halt = true :=
  ⟨_, ⟨by decide, by decide, by decide, by decide, by decide, by decide, by decide, by decide, by decide⟩, rfl, rfl, rfl⟩

/-- A block halted by an illegal opcode. -/
def halted : State := { filterAB with errFlags := 0x01, halt := true }

theorem halted_inv : halted.Inv :=
  ⟨by decide, by decide, by decide, by decide, by decide, by decide, by decide, by decide, by decide⟩

theorem witness_HaltedBlockDiscards :
    (halted.halt = true ∧ halted.input = []) ∧
    (fun s : State => s.halt = true ∧ s.input = bytesIn [0x08, 0x00] ++ [.reset])
      { halted with input := bytesIn [0x08, 0x00] ++ [.reset] } ∧
    ∃ t, step { halted with input := [.reset] } = .next t ∧ t.halt = false :=
  ⟨by decide, by decide, _, rfl, rfl⟩

theorem witness_StepStopsOnlyWaiting :
    ({ State.reset with input := [.byte 0x08] } : State).input ≠ [] ∧ State.reset.input = [] ∧ halted.input = [] ∧
    ({ State.reset with pkt := [0x08] } : State).input = [] := by decide

theorem witness_ResetValues :
    (∃ a, Instr.rdarr 0 = .rdarr a) ∧ regOf 0x00#8 = some .status ∧ regOf 0x0b#8 = some .digest3 ∧
    ((1 : Word32).msb = false ∧ (1 : Word32) ≠ 0 ∧ ((1 : Word32).toNat + 7) / 8 ≤ 1) ∧
    ((0x7fffffff : Word32).msb = false ∧ ((0x7fffffff : Word32).toNat + 7) / 8 ≤ 2 ^ 28) :=
  ⟨⟨0, rfl⟩, by decide⟩

theorem witness_ResetAtAnyTime : ({ halted with input := [.reset] } : State).input = .reset :: [] ∧
    ({ State.reset with pkt := [0x03, 0x00], input := [.reset, .byte 0] } : State).input = .reset :: [.byte 0] := by decide

theorem witness_ResetHasInvariant :
    Params.WellFormed { arrayBytesMax := 1, seedExt := .sign } ∧
    Params.WellFormed { arrayBytesMax := 2 ^ 28, seedExt := .zero } := by decide

theorem witness_StepKeepsInvariant : ∃ t, State.Inv { filterAB with input := [.byte 0x08] } ∧
    step { filterAB with input := [.byte 0x08] } = .next t :=
  ⟨_, ⟨by decide, by decide, by decide, by decide, by decide, by decide, by decide, by decide, by decide⟩, rfl⟩

theorem witness_FailuresArePrecise :
    Claims.failureOf (.insert []) State.reset = some .eNocfg ∧ Claims.failureOf (.rdarr 0) State.reset = some .eNocfg ∧
    Claims.failureOf (.config 6 0) filterAB = some .eCfg ∧
    Claims.failureOf (.config 6 0x80000000) filterAB = some .eCfg ∧
    Claims.failureOf (.config 6 32769) (State.resetWith { arrayBytesMax := 4096, seedExt := .zero }) = some .eCfg ∧
    Claims.failureOf (.wrarr 2 0) filterAB = some .eAddr ∧ Claims.failureOf (.rdreg 0x07) filterAB = some .eReg ∧
    Claims.failureOf (.rdreg 0x0c) filterAB = some .eReg ∧ Claims.failureOf (.rdreg 0xff) filterAB = some .eReg ∧
    Claims.failureOf (.config 6 0x7fffffff) filterAB = none ∧ Claims.failureOf (.rdarr 1) filterAB = none ∧
    Claims.failureOf (.config 6 32768) (State.resetWith { arrayBytesMax := 4096, seedExt := .zero }) = none ∧
    Claims.failureOf (.rdreg 0x08) filterAB = none := by decide

theorem witness_ErrFlagsAreSticky : ∃ t, step { halted with input := [.byte 0x00] } = .next t ∧
    ({ halted with input := [.byte 0x00] } : State).input.head? ≠ some .reset := ⟨_, rfl, by decide⟩

/-- For the statements about a command's next state: every command has one, failing or not. -/
theorem witness_OnlyConfigConfigures :
    (∃ t, exec (.config 1 8) filterAB = .next t) ∧ (∃ t, exec (.config 1 0) filterAB = .next t) ∧
    (∃ t, exec (.rdarr 0) filterAB = .next t) ∧ (∀ hc bc, Instr.rdarr 0 ≠ .config hc bc) ∧ filterAB.bitCount ≠ 0 ∧
    Claims.failureOf (.config 1 8) filterAB = none ∧ Claims.failureOf (.config 1 0) filterAB = some .eCfg :=
  ⟨exec_next _ _, exec_next _ _, exec_next _ _, by simp, by decide⟩

theorem witness_WhoNeedsAFilter :
    (∃ t, exec (.wrarr 0 0) State.reset = .next t ∧ t.output = State.reset.output ++ [0x02#8]) ∧
    State.reset.bitCount = 0 ∧ (∃ t, exec (.hash 0 []) State.reset = .next t) ∧
    (∃ t, exec (.rdreg 0) State.reset = .next t) := ⟨⟨_, rfl, rfl⟩, rfl, exec_next _ _, exec_next _ _⟩

theorem witness_ResultAndProbesWriters :
    (∃ t, exec (.insert []) filterAB = .next t) ∧ (∀ m, Instr.insert [] ≠ .contains m) ∧
    (∃ t, exec (.contains []) State.reset = .next t) ∧ State.reset.bitCount = 0 ∧
    (∃ t, exec (.rdreg 0) filterAB = .next t) ∧ (∀ m, Instr.rdreg 0 ≠ .contains m) ∧ (∀ m, Instr.rdreg 0 ≠ .insert m) :=
  ⟨exec_next _ _, by simp, exec_next _ _, rfl, exec_next _ _, by simp, by simp⟩

theorem witness_RegisterWriters :
    (∃ t, exec (.rdarr 0) filterAB = .next t) ∧ (∀ m, Instr.rdarr 0 ≠ .insert m) ∧ (∀ m, Instr.rdarr 0 ≠ .contains m) ∧
    (∀ seed m, Instr.rdarr 0 ≠ .hash seed m) ∧ (∀ d, Instr.rdarr 0 ≠ .index d) ∧
    (∀ hc bc, Instr.rdarr 0 ≠ .config hc bc) ∧ (∀ a d, Instr.rdarr 0 ≠ .wrarr a d) :=
  ⟨exec_next _ _, by simp, by simp, by simp, by simp, by simp, by simp⟩

theorem witness_PortAndParametersUntouched :
    (∃ t, exec (.insert []) filterAB = .next t) ∧ (∃ t, step { halted with input := [.reset] } = .next t) :=
  ⟨exec_next _ _, _, rfl⟩

theorem witness_ScratchIsUnobservable : ∃ t, exec (.insert [0x61]) filterAB = .next t := exec_next _ _

theorem witness_SeedExtensionOnlyAboveBit31 :
    (0x7fffffff : Word32).msb = false ∧ 65534 < (0xffff : Word16).toNat ∧ 0 < (1 : Word16).toNat := by decide

theorem witness_TailStepClosedForm :
    ([] : List Byte).length ≤ 15 ∧ (Claims.countingBytes 8).length ≤ 15 ∧ (Claims.countingBytes 9).length ≤ 15 ∧
    (Claims.countingBytes 15).length ≤ 15 := by decide

theorem witness_ZeroBytesCollideAcrossSeeds : (1 ≤ 1 ∧ 1 ≤ 15) ∧ (1 ≤ 15 ∧ 15 ≤ 15) := by decide

/-- The bounds of `bitCount` in `BitAddressOutputs`, `DigestIntegerValue` and `HornerEqualsExactReduction`. -/
theorem witness_BitAddressOutputs :
    1 ≤ (1 : Word32).toNat ∧ (1 : Word32).toNat ≤ 2 ^ 31 - 1 ∧ 1 ≤ (0x7fffffff : Word32).toNat ∧
    (0x7fffffff : Word32).toNat ≤ 2 ^ 31 - 1 := by decide

theorem witness_DigestIntegerValue :
    1 ≤ (1 : Word32).toNat ∧ (1 : Word32).toNat ≤ 2 ^ 31 - 1 ∧ 1 ≤ (0x7fffffff : Word32).toNat ∧
    (0x7fffffff : Word32).toNat ≤ 2 ^ 31 - 1 := witness_BitAddressOutputs

theorem witness_MostSignificantBitFirst : filterAB.bitCount ≠ 0 := filterAB_configured

theorem witness_HornerEqualsExactReduction :
    (1 ≤ 1 ∧ 1 ≤ 2 ^ 31 - 1 ∧ 0 ≤ 16) ∧ (1 ≤ 2 ^ 31 - 1 ∧ 2 ^ 31 - 1 ≤ 2 ^ 31 - 1 ∧ 16 ≤ 16) := by decide

theorem witness_IndexCommand : filterAB.bitCount ≠ 0 ∧ State.reset.bitCount = 0 ∧
    ({ State.reset with bitCount := 9585 } : State).bitCount = 9585 := by decide

theorem witness_InsertCommand :
    filterAB.bits.wf ∧ filterAB.bitCount ≠ 0 ∧ filterAB.hashCount ≠ 0 ∧ State.reset.bitCount = 0 ∧
    ({ filterAB with hashCount := 0 } : State).hashCount = 0 ∧
    (∀ i, i < 3 → (probeAddr filterAB.params filterAB.bitCount [0x61] i).byteIndex.toNat ≠ 2) := by decide +kernel

theorem witness_ContainsCommand :
    filterAB.bitCount ≠ 0 ∧ filterAB.hashCount ≠ 0 ∧ State.reset.bitCount = 0 ∧
    ({ filterAB with hashCount := 0 } : State).hashCount = 0 := by decide

theorem witness_NoFalseNegatives : ∃ t u, filterAB.Inv ∧ filterAB.bitCount ≠ 0 ∧
    exec (.insert [0x61]) filterAB = .next t ∧
    (∀ i ∈ [Instr.config 3 0, .wrarr 0 0x02, .hash 0 []], Claims.SparesElement filterAB [0x61] i) ∧
    execAll [.config 3 0, .wrarr 0 0x02, .hash 0 []] t = .next u := by
  refine ⟨_, _, filterAB_inv, filterAB_configured, rfl, ?_, rfl⟩
  intro i hi
  rcases List.mem_cons.mp hi with rfl | hi
  · exact .inl rfl
  rcases List.mem_cons.mp hi with rfl | hi
  · have : ∀ k, k < 3 → (probeAddr filterAB.params filterAB.bitCount [0x61] k).byteIndex = 0 →
        selectsBit 0x02 (probeAddr filterAB.params filterAB.bitCount [0x61] k).mask = true := by decide +kernel
    exact this
  · rw [List.mem_singleton.mp hi]
    trivial

theorem witness_InsertionOrderIndependence : ∃ t t' u u', filterAB.Inv ∧ filterAB.bitCount ≠ 0 ∧
    (∀ e : List Byte, e ∈ [[0x61], [0x62]] ↔ e ∈ [[0x62], [0x61], [0x62]]) ∧
    execAll ([[0x61], [0x62]].map .insert) filterAB = .next t ∧
    execAll ([[0x62], [0x61], [0x62]].map .insert) filterAB = .next t' ∧
    exec (.contains [0x63]) t = .next u ∧ exec (.contains [0x63]) t' = .next u' :=
  ⟨_, _, _, _, filterAB_inv, filterAB_configured, fun e => by simp only [List.mem_cons, List.not_mem_nil, or_false]; tauto, rfl, rfl, rfl, rfl⟩

theorem witness_ContentIsMonotonic : ∃ t u, filterAB.Inv ∧ filterAB.bitCount ≠ 0 ∧
    (∀ i ∈ [Instr.insert [0x63], .config 3 0], Claims.LeavesOnes filterAB.params i) ∧
    execAll [.insert [0x63], .config 3 0] filterAB = .next t ∧
    exec (.contains [0x61]) filterAB = .next u ∧ u.result = true :=
  ⟨_, _, filterAB_inv, filterAB_configured, by
    intro i hi
    rcases List.mem_cons.mp hi with rfl | hi
    · exact .inl rfl
    · rw [List.mem_singleton.mp hi]
      exact .inr ⟨3, 0, rfl, .inl rfl⟩, rfl, rfl, by decide +kernel⟩

theorem witness_ZeroHashCount :
    ({ filterAB with hashCount := 0 } : State).bitCount ≠ 0 ∧ ({ filterAB with hashCount := 0 } : State).hashCount = 0 ∧
    Params.WellFormed { arrayBytesMax := 1, seedExt := .sign } := by decide

/-- A filter of 13 bits whose padding a host has set (section 3.4): the third clause's value 13 is `BITCOUNT`. -/
theorem witness_InsertLeavesPadding : ∃ t, State.Inv { filterAB with bitCount := 13 } ∧
    ({ filterAB with bitCount := 13 } : State).bitCount ≠ 0 ∧
    exec (.insert [0x61]) { filterAB with bitCount := 13 } = .next t ∧
    ({ filterAB with bitCount := 13 } : State).bitCount.toNat ≤ 13 :=
  ⟨_, ⟨by decide, by decide, by decide, by decide, by decide, by decide, by decide, by decide, by decide⟩, by decide, rfl,
   by decide⟩

theorem witness_ContainsReadsOnlyFilterBits : ∃ t t',
    State.Inv { smallFilter 0x12 0x70 with bitCount := 13 } ∧ State.Inv { smallFilter 0x12 0x77 with bitCount := 13 } ∧
    (∀ i, i < 13 → filterBit { smallFilter 0x12 0x77 with bitCount := 13 } i =
      filterBit { smallFilter 0x12 0x70 with bitCount := 13 } i) ∧
    exec (.contains [0x61]) { smallFilter 0x12 0x70 with bitCount := 13 } = .next t ∧
    exec (.contains [0x61]) { smallFilter 0x12 0x77 with bitCount := 13 } = .next t' :=
  ⟨_, _, ⟨by decide, by decide, by decide, by decide, by decide, by decide, by decide, by decide, by decide⟩,
   ⟨by decide, by decide, by decide, by decide, by decide, by decide, by decide, by decide, by decide⟩, by decide, rfl, rfl⟩

theorem witness_ConfigCommand :
    ((0x7fffffff : Word32).msb = false ∧ (0x7fffffff : Word32) ≠ 0 ∧
      ((0x7fffffff : Word32).toNat + 7) / 8 ≤ filterAB.params.arrayBytesMax) ∧
    (1 : Word32).msb = false ∧ (0x80000000 : Word32).msb = true ∧
    (State.resetWith { arrayBytesMax := 4096, seedExt := .zero }).params.arrayBytesMax <
      ((32769 : Word32).toNat + 7) / 8 := by decide

theorem witness_RdarrCommand :
    (filterAB.bitCount ≠ 0 ∧ (1 : Word32).toNat < (filterAB.bitCount.toNat + 7) / 8) ∧
    (filterAB.bitCount.toNat + 7) / 8 ≤ (2 : Word32).toNat ∧ State.reset.bitCount = 0 ∧
    filterAB.bitCount = 16 ∧ filterAB.bits = [(0, 0x12#8), (1, 0x70#8)] := by decide

theorem witness_WrarrCommand :
    (filterAB.bits.wf ∧ filterAB.bitCount ≠ 0 ∧ (1 : Word32).toNat < (filterAB.bitCount.toNat + 7) / 8) ∧
    (filterAB.bitCount.toNat + 7) / 8 ≤ (2 : Word32).toNat ∧ State.reset.bitCount = 0 := by decide

theorem witness_RdregCommand :
    ((0x0b : Byte) ≠ 0x07#8 ∧ (0x0b : Byte).toNat < 0x0C) ∧ 0x0C ≤ (0x0c : Byte).toNat ∧
    ({ State.reset with bitCount := 9585 } : State).bitCount = 9585 := by decide

theorem witness_RegisterMap : filterAB.Inv ∧ filterAB.halt = false ∧ (2 ≤ 7 ∧ 7 ≤ 7) ∧ (13 ≤ 15 ∧ 15 ≤ 15) :=
  ⟨filterAB_inv, by decide, by decide, by decide⟩

theorem witness_HashIdxIsOneProbe : MessageFits [0x61] ∧ PortIdle filterAB ∧ filterAB.bitCount ≠ 0 ∧
    PortIdle State.reset ∧ State.reset.bitCount = 0 := by decide

theorem witness_ImageLayout :
    (fun m : Image => m.bitCount.msb = false ∧ m.bitCount ≠ 0 ∧ m.array.length = (m.bitCount.toNat + 7) / 8)
      { hashCount := 0, bitCount := 9, array := [0, 0] } := by decide

theorem witness_SaveWritesTheFilter :
    (filterAB.Inv ∧ PortIdle filterAB ∧ filterAB.bitCount ≠ 0) ∧ PortIdle State.reset ∧ State.reset.bitCount = 0 :=
  ⟨⟨filterAB_inv, filterAB_idle, filterAB_configured⟩, reset_idle, rfl⟩

theorem witness_LoadRefusesBadImages :
    ([0x43#8, 0x43, 0x42, 0x46, 0, 1, 0, 3, 0, 0, 0].length < 12) ∧
    (fun img : List Byte => 12 ≤ img.length ∧ img.take 4 = [0x43, 0x43, 0x42, 0x46] ∧
      be16 ((img.drop 4).take 2) ≠ 1) [0x43, 0x43, 0x42, 0x46, 0, 2, 0, 3, 0, 0, 0, 0x10] ∧
    (fun img : List Byte => 12 ≤ img.length ∧ img.take 6 = [0x43, 0x43, 0x42, 0x46, 0x00, 0x01] ∧
      be32 ((img.drop 8).take 4) = 0) [0x43, 0x43, 0x42, 0x46, 0, 1, 0, 3, 0, 0, 0, 0] ∧
    (fun img : List Byte => 12 ≤ img.length ∧ img.take 6 = [0x43, 0x43, 0x42, 0x46, 0x00, 0x01] ∧
      img.length ≠ 12 + ((be32 ((img.drop 8).take 4)).toNat + 7) / 8)
      [0x43, 0x43, 0x42, 0x46, 0, 1, 0, 3, 0, 0, 0, 0x10, 0x12] ∧
    (fun (img : List Byte) (s : State) => img.take 6 = [0x43, 0x43, 0x42, 0x46, 0x00, 0x01] ∧
      (be32 ((img.drop 8).take 4)).msb = false ∧ be32 ((img.drop 8).take 4) ≠ 0 ∧
      img.length = 12 + ((be32 ((img.drop 8).take 4)).toNat + 7) / 8 ∧
      s.params.arrayBytesMax < ((be32 ((img.drop 8).take 4)).toNat + 7) / 8 ∧ PortIdle s)
      [0x43, 0x43, 0x42, 0x46, 0, 1, 0, 3, 0, 0, 0, 0x10, 0x12, 0x70]
      (State.resetWith { arrayBytesMax := 1, seedExt := .zero }) := by decide

theorem witness_SaveLoadRoundTrip : filterAB.Inv ∧ PortIdle filterAB ∧ filterAB.bitCount ≠ 0 ∧ State.reset.Inv ∧
    PortIdle State.reset ∧ (filterAB.bitCount.toNat + 7) / 8 ≤ State.reset.params.arrayBytesMax ∧
    (∃ x, exec (.contains [0x61]) filterAB = .next x) ∧ ∀ v, ∃ y, exec (.contains [0x61]) v = .next y :=
  ⟨filterAB_inv, filterAB_idle, filterAB_configured, reset_inv, reset_idle, by decide, exec_next _ _, fun v => exec_next _ v⟩

/-- An arithmetic whose every quotient has the given floor, for the boundary values of the sizes. -/
def floorsAt (n : Int) : HostArith where
  Num := Unit
  ofInt := fun _ => ()
  ofRat := fun _ => ()
  ln := id
  neg := id
  mul := fun _ => id
  div := fun _ => id
  floor := fun _ => n

theorem witness_NewFilterChecksParameters :
    ((0 : Rat) ≤ 0) ∧ ((1 : Rat) ≤ 1) ∧ sizedBitCount (floorsAt 0) 0 (1 / 100) < 1 ∧
    2 ^ 31 - 1 < sizedBitCount (floorsAt (2 ^ 31)) 0 (1 / 100) ∧ sizedHashCount (floorsAt (-1)) (1 / 100) < 0 ∧
    65535 < sizedHashCount (floorsAt 65536) (1 / 100) ∧
    ((0 : Rat) < 1 / 100 ∧ (1 / 100 : Rat) < 1 ∧ sizedBitCount (floorsAt 65535) 0 (1 / 100) = (65535 : Nat) ∧
      sizedHashCount (floorsAt 65535) (1 / 100) = (65535 : Nat) ∧ PortIdle State.reset ∧
      (65535 + 7) / 8 ≤ State.reset.params.arrayBytesMax) ∧
    (PortIdle (State.resetWith { arrayBytesMax := 4096, seedExt := .zero }) ∧
      (State.resetWith { arrayBytesMax := 4096, seedExt := .zero }).params.arrayBytesMax < (65535 + 7) / 8) :=
  ⟨le_refl _, le_refl _, by decide, by decide, by decide, by decide,
   ⟨by norm_num, by norm_num, rfl, rfl, reset_idle, by decide⟩, by decide⟩

/-- Exact arithmetic meets every bound; `NEWFILTER 1, 1/2` has sizes in range. -/
theorem witness_NewFilterFollowsTheFormulas :
    (∃ bc hc : Nat, (0 : Rat) < 1 / 2 ∧ (1 / 2 : Rat) < 1 ∧ SizingFormula 1 (1 / 2) bc hc ∧ 1 ≤ bc ∧
      bc ≤ 2 ^ 31 - 1 ∧ hc ≤ 65535) ∧
    SizesWithin (1 / 100) realArith 1000 (1 / 100) ∧ SizesWithin 0 realArith 1000 (1 / 2) ∧
    SizesWithin (1 / 100) realArith 1000 (3 / 5) ∧ SizesWithin (1 / 100) realArith 0 (1 / 100) ∧
    SizesWithin (1 / 100) realArith 100 (1 / 1000) ∧ PortIdle State.reset ∧
    1199 ≤ State.reset.params.arrayBytesMax := by
  have w (n : Int) (ε : Rat) := sizesWithin_realArith (1 / 100) (by norm_num) n ε
  have z (n : Int) (ε : Rat) := sizesWithin_realArith 0 (le_refl 0) n ε
  have hl : -Real.log (((1 / 2 : Rat)) : ℝ) = Real.log 2 := by
    rw [show (((1 / 2 : Rat)) : ℝ) = (2 : ℝ)⁻¹ by norm_num, Real.log_inv, neg_neg]
  obtain ⟨h1, h2⟩ := sized_of_bounds realArith 0 1 1 1 (1 / 2) 1 1 (z _ _) (by norm_num) (by norm_num)
    (by rw [hl, one_mul]) (by rw [hl, one_mul]) (by norm_num) (by norm_num) (by norm_num) (by norm_num)
  have hf := sizingFormula_realArith 1 (1 / 2)
  rw [h1, h2] at hf
  exact ⟨⟨1, 1, by norm_num, by norm_num, hf, by decide, by decide, by decide⟩, w _ _, z _ _, w _ _, w _ _, w _ _,
    reset_idle, by decide⟩

end Sys2Proof.Tests
end

section
/-! The obligations of 10_state.md: what a command may write, what every step keeps, reset and the register map. -/

namespace Sys2Proof.Machine

/-! ### What one command makes of the state -/

/-- The transition relation of one command: `exec_cases` with the next state as an index, so that a proof about every
command is one `cases` with a named case per effect. -/
inductive Effect (s : State) : Instr → State → Prop
  | fail (i : Instr) (e : Status) (he : haltsBlock e = false) : Effect s i (raiseStatus e s)
  | hash (seed : Word32) (msg : List Byte) : Effect s (.hash seed msg)
      (respondOk (murmur128 s.params.seedExt msg seed).toList (evalHash msg seed s))
  | index (d : Digest) (hc : s.bitCount ≠ 0) : Effect s (.index d)
      (respondOk (bytesBe32 (bitAddress d s.bitCount).bitIndex) (writeIndex (bitAddress d s.bitCount) s))
  | insert (msg : List Byte) (hc : s.bitCount ≠ 0) : Effect s (.insert msg)
      (respondOk [] (writeProbes s.hashCount (insertLoop msg s.hashCount.toNat 0 s)))
  | contains (msg : List Byte) (r : TestResult) (hc : s.bitCount ≠ 0)
      (hr : r = containsLoop msg s.hashCount.toNat 0 s) : Effect s (.contains msg)
      (respondOk [answerByte r.answer] (writeProbes (BitVec.ofNat 16 r.probes) (writeResult r.answer r.state)))
  | config (hc : Word16) (bc : Word32) (h0 : bc ≠ 0) (hlt : bc.toNat < 2 ^ 31)
      (hfit : arrayBytes bc ≤ s.params.arrayBytesMax) : Effect s (.config hc bc)
      (respondOk [] (clearArray (arrayBytes bc) (writeConfig hc bc s)))
  | rdarr (addr : Word32) (hc : s.bitCount ≠ 0) (ha : addr.toNat < nbytes s) :
      Effect s (.rdarr addr) (respondOk [memRead addr.toNat s] s)
  | wrarr (addr : Word32) (data : Byte) (hc : s.bitCount ≠ 0) (ha : addr.toNat < nbytes s) :
      Effect s (.wrarr addr data) (respondOk [] (memWrite addr.toNat data s))
  | rdreg (regno : Byte) (r : Reg) (hr : regOf regno = some r) :
      Effect s (.rdreg regno) (respondOk (bytesBe32 (regValue r s)) s)

/-- Whatever a command answers, one of the effects took place. -/
theorem effect_of_exec {i : Instr} {s t : State} (h : exec i s = .next t) : Effect s i t := by
  rcases exec_cases i s with ⟨e, he, hx⟩ | ⟨seed, msg, rfl, hx⟩ | ⟨d, rfl, hc, hx⟩ | ⟨msg, rfl, hc, hx⟩ |
    ⟨msg, r, rfl, hc, hr, hx⟩ | ⟨hc, bc, rfl, h0, hlt, hfit, hx⟩ | ⟨addr, rfl, hc, ha, hx⟩ |
    ⟨addr, data, rfl, hc, ha, hx⟩ | ⟨regno, r, rfl, hr, hx⟩ <;>
    obtain rfl := Host.Outcome.next.inj (h.symm.trans hx)
  · exact .fail i e (by rcases he with rfl | rfl | rfl | rfl <;> rfl)
  · exact .hash seed msg
  · exact .index d hc
  · exact .insert msg hc
  · exact .contains msg r hc hr
  · exact .config hc bc h0 hlt hfit
  · exact .rdarr addr hc ha
  · exact .wrarr addr data hc ha
  · exact .rdreg regno r hr

/-- The five commands that need a filter fail without one, whatever their operands (R84, R105). -/
theorem exec_of_unconfigured {i : Instr} {s : State} (h : s.bitCount = 0)
    (hi : (∃ d, i = .index d) ∨ (∃ m, i = .insert m) ∨ (∃ m, i = .contains m) ∨ (∃ a, i = .rdarr a) ∨
      (∃ a d, i = .wrarr a d)) : exec i s = .next (raiseStatus .eNocfg s) := by
  rcases hi with ⟨d, rfl⟩ | ⟨m, rfl⟩ | ⟨m, rfl⟩ | ⟨a, rfl⟩ | ⟨a, d, rfl⟩ <;> exact if_pos h

/-- No command touches the port or the parameters (R20, R21). -/
theorem exec_port {i : Instr} {s t : State} (h : exec i s = .next t) :
    t.pkt = s.pkt ∧ t.halt = s.halt ∧ t.input = s.input ∧ t.params = s.params := by
  cases effect_of_exec h with
  | fail i e he => simp [he]
  | hash seed msg => simp
  | index d hc => simp
  | insert msg hc => simp
  | contains msg r hc hr => simp [hr]
  | config hc bc h0 hlt hfit => simp
  | rdarr addr hc ha => simp
  | wrarr addr data hc ha => simp
  | rdreg regno r hr => simp

/-- A command or-s the flag of the status it answers into `ERRFLAGS`, and success has none (R16, R100). -/
theorem exec_errFlags {i : Instr} {s t : State} (h : exec i s = .next t) :
    ∃ e, t.errFlags = s.errFlags ||| errFlag e := by
  cases effect_of_exec h with
  | fail i e he => exact ⟨e, rfl⟩
  | hash seed msg => exact ⟨.ok, by simp [errFlag]⟩
  | index d hc => exact ⟨.ok, by simp [errFlag]⟩
  | insert msg hc => exact ⟨.ok, by simp [errFlag]⟩
  | contains msg r hc hr => exact ⟨.ok, by simp [errFlag, hr]⟩
  | config hc bc h0 hlt hfit => exact ⟨.ok, by simp [errFlag]⟩
  | rdarr addr hc ha => exact ⟨.ok, by simp [errFlag]⟩
  | wrarr addr data hc ha => exact ⟨.ok, by simp [errFlag]⟩
  | rdreg regno r hr => exact ⟨.ok, by simp [errFlag]⟩

/-! ### Packets in `PKT` -/

theorem lengthKnownAfter_le_headerLength (op : Opcode) : lengthKnownAfter op ≤ headerLength op := by
  cases op <;> decide

theorem headerLength_pos (op : Opcode) : 0 < headerLength op := by cases op <;> decide

/-- A field that lies in the first part of some bytes. -/
theorem field_append_left {p : List Byte} (q : List Byte) {a n : Nat} (h : a + n ≤ p.length) :
    field (p ++ q) a n = field p a n := by
  rw [field, field, List.drop_append_of_le_length (by omega), List.take_append_of_le_length]
  rw [List.length_drop]
  omega

/-- The `len` field lies in the header (R33): bytes after the header do not change the payload's length. -/
theorem payloadLength_append (op : Opcode) (p q : List Byte) (h : headerLength op ≤ p.length) :
    payloadLength op (p ++ q) = payloadLength op p := by
  cases op with
  | hash => exact congrArg beNat (field_append_left q h)
  | insert => exact congrArg beNat (field_append_left q h)
  | contains => exact congrArg beNat (field_append_left q h)
  | index => rfl
  | config => rfl
  | rdarr => rfl
  | wrarr => rfl
  | rdreg => rfl

/-- Bytes that hold a whole packet fix its length themselves (R33). -/
theorem packetLength_of_append {p q : List Byte} {n : Nat} (h : packetLength (p ++ q) = some n)
    (hp : p ≠ []) (hn : n ≤ p.length) : packetLength p = some n := by
  obtain ⟨b, p', rfl⟩ := List.exists_cons_of_ne_nil hp
  cases ho : opcodeOf b with
  | none => simpa [packetLength, ho] using h
  | some op =>
    have hk := lengthKnownAfter_le_headerLength op
    rw [List.cons_append, packetLength_cons b _ op ho, ← List.cons_append, Option.ite_none_left_eq_some,
      Option.some_inj] at h
    obtain ⟨_, h⟩ := h
    rw [packetLength_cons b p' op ho, if_neg (by omega),
      ← payloadLength_append op (b :: p') q (by omega), h]

theorem packetLength_pos {p : List Byte} {n : Nat} (h : packetLength p = some n) : 0 < n := by
  cases p with
  | nil => simp [packetLength] at h
  | cons b p =>
    cases ho : opcodeOf b with
    | none =>
      simp only [packetLength, ho, Option.some.injEq] at h
      omega
    | some op =>
      have := headerLength_pos op
      rw [packetLength_cons b p op ho, Option.ite_none_left_eq_some, Option.some_inj] at h
      omega

/-- Bytes shorter than their packet are all that is incomplete once its length is known (R34). -/
theorem lt_of_decode_incomplete {p : List Byte} {n : Nat} (hn : packetLength p = some n)
    (h : decode p = .incomplete) : p.length < n := by
  rcases decode_cases p with ⟨rfl, _⟩ | ⟨_, _, _, _, hd⟩ | ⟨_, _, _, _, _, hnone, _⟩ |
    ⟨_, _, _, m, _, _, hm, ⟨hlt, _⟩ | ⟨_, hd⟩⟩
  · exact packetLength_pos hn
  · simp [hd] at h
  · simp [hnone] at hn
  · rwa [Option.some.inj (hn.symm.trans hm)]
  · simp [hd] at h

/-- A packet completed by one more byte takes all bytes (R34). -/
theorem rest_nil_of_packet {p rest : List Byte} {b : Byte} {i : Instr} (hp : decode p = .incomplete)
    (h : decode (p ++ [b]) = .packet i rest) : rest = [] := by
  rcases decode_cases (p ++ [b]) with ⟨_, hd⟩ | ⟨_, _, _, _, hd⟩ | ⟨_, _, _, _, _, _, hd⟩ |
    ⟨_, _, _, n, _, _, hn, ⟨_, hd⟩ | ⟨_, hd⟩⟩
  · simp [hd] at h
  · simp [hd] at h
  · simp [hd] at h
  · simp [hd] at h
  · have hlt : p.length < n := by
      by_contra hle
      have hne : p ≠ [] := by
        rintro rfl
        exact hle (packetLength_pos hn)
      exact hle (lt_of_decode_incomplete (packetLength_of_append hn hne (by omega)) hp)
    obtain ⟨_, rfl⟩ := Decoded.packet.inj (hd.symm.trans h)
    exact List.drop_eq_nil_of_le (by rw [List.length_append, List.length_singleton]; omega)

/-- An illegal opcode is a whole packet of one byte (R38, R101). -/
theorem eq_cons_of_decode_illegal {p rest : List Byte} (h : decode p = .illegal rest) :
    ∃ b, p = b :: rest ∧ opcodeOf b = none := by
  rcases decode_cases p with ⟨_, hd⟩ | ⟨b, l, hp, ho, hd⟩ | ⟨_, _, _, _, _, _, hd⟩ |
    ⟨_, _, _, _, _, _, _, ⟨_, hd⟩ | ⟨_, hd⟩⟩
  · simp [hd] at h
  · obtain rfl := Decoded.illegal.inj (hd.symm.trans h)
    exact ⟨b, hp, ho⟩
  · simp [hd] at h
  · simp [hd] at h
  · simp [hd] at h

/-- An illegal opcode is met between packets only, so nothing is left of it (R101). -/
theorem rest_nil_of_illegal {p rest : List Byte} {b : Byte} (hp : decode p = .incomplete)
    (h : decode (p ++ [b]) = .illegal rest) : rest = [] := by
  obtain ⟨c, hc, ho⟩ := eq_cons_of_decode_illegal h
  cases p with
  | nil => exact (List.cons.inj hc).2.symm
  | cons d p =>
    obtain rfl := (List.cons.inj hc).1
    simp [decode, ho] at hp

/-! ### The invariant, one operation at a time -/

theorem errFlag_lt (e : Status) : (errFlag e).toNat < 2 ^ 5 := by cases e <;> decide

/-- `F_ILLEGAL` is the flag of the one status that halts (R16, R102). -/
theorem errFlag_getLsbD_zero (e : Status) : (errFlag e).getLsbD 0 = haltsBlock e := by cases e <;> rfl

namespace State.Inv

variable {s : State}

theorem arrayBytes_le (h : s.Inv) (hc : s.bitCount ≠ 0) : arrayBytes s.bitCount ≤ s.params.arrayBytesMax :=
  (h.bitCount.resolve_left hc).2

theorem respondOk (h : s.Inv) (data : List Byte) : (respondOk data s).Inv := { h with }

theorem evalHash (h : s.Inv) (msg : List Byte) (seed : Word32) : (evalHash msg seed s).Inv := { h with }

theorem writeResult (h : s.Inv) (r : Bool) : (writeResult r s).Inv := { h with }

theorem writeProbes (h : s.Inv) (n : Word16) : (writeProbes n s).Inv := { h with }

/-- Failing keeps the invariant: `HALT` and `F_ILLEGAL` are set together, and only with `PKT` empty (R102). -/
theorem raiseStatus (h : s.Inv) (e : Status) (hp : haltsBlock e = true → s.pkt = []) : (raiseStatus e s).Inv :=
  { h with
    errFlags := by
      rw [raiseStatus_errFlags, BitVec.toNat_or]
      exact Nat.or_lt_two_pow h.errFlags (errFlag_lt e)
    halt := by
      rw [raiseStatus_halt, raiseStatus_errFlags, BitVec.getLsbD_or, errFlag_getLsbD_zero, h.halt]
    haltPkt := by
      rw [raiseStatus_halt, raiseStatus_pkt, Bool.or_eq_true]
      exact fun hh => hh.elim h.haltPkt hp }

/-- An evaluation of `BitAddress` leaves consistent index registers (R13, R60). -/
theorem writeIndex (h : s.Inv) (d : Digest) (hc : s.bitCount ≠ 0) :
    (writeIndex (bitAddress d s.bitCount) s).Inv :=
  { h with
    index := by
      have hmsb := (h.bitCount.resolve_left hc).1
      rw [BitVec.msb_eq_false_iff_two_mul_lt] at hmsb
      have hlt := bitAddress_bitIndex_lt d hc
      refine .inr ⟨hc, ?_, bitAddress_byteIndex d hc, bitAddress_mask d hc⟩
      rw [writeIndex_bitIndex, BitVec.msb_eq_false_iff_two_mul_lt]
      omega }

/-- A byte written below `NBYTES` is within the capacity (R19, R27). -/
theorem memWrite (h : s.Inv) (hc : s.bitCount ≠ 0) {a : Nat} (ha : a < arrayBytes s.bitCount) (v : Byte) :
    (memWrite a v s).Inv :=
  { h with
    bits := Memory.write_wf _ _ _ h.bits
    capacity := fun c hm => by
      rcases Memory.mem_write hm with rfl | hm
      · exact ha.trans_le (h.arrayBytes_le hc)
      · exact h.capacity c hm }

theorem probe (h : s.Inv) (hc : s.bitCount ≠ 0) (msg : List Byte) (i : Nat) : (probe msg i s).Inv :=
  (h.evalHash msg _).writeIndex _ hc

theorem insertLoop (h : s.Inv) (hc : s.bitCount ≠ 0) (msg : List Byte) (n i : Nat) :
    (insertLoop msg n i s).Inv := by
  induction n generalizing i s with
  | zero => exact h
  | succ n ih =>
    have hprobe := (h.probe hc msg i).memWrite hc (a := (Machine.probe msg i s).byteIndex.toNat)
      (bitAddress_byteIndex_lt _ hc)
    exact ih (hprobe _) hc (i + 1)

theorem containsLoop (h : s.Inv) (hc : s.bitCount ≠ 0) (msg : List Byte) (n i : Nat) :
    (containsLoop msg n i s).state.Inv := by
  induction n generalizing i s with
  | zero => exact h
  | succ n ih =>
    rw [Machine.containsLoop]
    split
    · exact ih (h.probe hc msg i) hc (i + 1)
    · exact h.probe hc msg i

/-- `CONFIG` with a legal `bitCount` that fits (R80). It does not write the index registers (R13), which stay
consistent. -/
theorem config (h : s.Inv) (hc : Word16) {bc : Word32} (h0 : bc ≠ 0) (hlt : bc.toNat < 2 ^ 31)
    (hfit : arrayBytes bc ≤ s.params.arrayBytesMax) :
    (clearArray (arrayBytes bc) (writeConfig hc bc s)).Inv :=
  { h with
    bitCount := .inr ⟨BitVec.msb_eq_false_iff_two_mul_lt.mpr (show 2 * bc.toNat < 2 ^ 32 by omega), hfit⟩
    index := h.index.imp id fun ⟨_, hi⟩ => ⟨h0, hi⟩
    bits := Memory.clearBelow_wf _ _ h.bits
    capacity := fun c hm => h.capacity c (List.mem_filter.mp hm).1 }

/-- Every command keeps the invariant. -/
theorem exec (h : s.Inv) {i : Instr} {t : State} (hx : exec i s = .next t) : t.Inv := by
  cases effect_of_exec hx with
  | fail i e he => exact h.raiseStatus e (by simp [he])
  | hash seed msg => exact (h.evalHash msg seed).respondOk _
  | index d hc => exact (h.writeIndex d hc).respondOk _
  | insert msg hc => exact ((h.insertLoop hc msg _ 0).writeProbes _).respondOk _
  | contains msg r hc hr => exact hr ▸ (((h.containsLoop hc msg _ 0).writeResult _).writeProbes _).respondOk _
  | config hc bc h0 hlt hfit => exact (h.config hc h0 hlt hfit).respondOk _
  | rdarr addr hc ha => exact h.respondOk _
  | wrarr addr data hc ha => exact (h.memWrite hc ha data).respondOk _
  | rdreg regno r hr => exact h.respondOk _

/-- The reset values meet the invariant whatever `BITS` a block holds (R22). -/
theorem resetWith {p : Params} (hp : p.WellFormed) {m : Memory} (hm : m.wf)
    (hcap : ∀ c ∈ m, c.1 < p.arrayBytesMax) : { State.resetWith p with bits := m : State }.Inv where
  params := hp
  bitCount := .inl rfl
  index := .inl ⟨rfl, rfl, rfl⟩
  errFlags := by simp [State.resetWith]
  halt := by simp [State.resetWith]
  haltPkt := fun _ => rfl
  pkt := rfl
  bits := hm
  capacity := hcap

/-- Reset keeps `BITS` and the parameters (R110). -/
theorem resetBlock (h : s.Inv) : (resetBlock s).Inv :=
  { resetWith h.params h.bits h.capacity with }

theorem set_input (h : s.Inv) (more : List HostEvent) : { s with input := more : State }.Inv := { h with }

/-- Emptying `PKT`: what the completion of a packet does (R20). -/
theorem clear_pkt (h : s.Inv) : { s with pkt := [] : State }.Inv :=
  { h with haltPkt := fun _ => rfl, pkt := rfl }

/-- A byte that completes no packet joins `PKT` of a block that is not halted (R20). -/
theorem set_pkt (h : s.Inv) (hh : s.halt = false) {p : List Byte} (hp : decode p = .incomplete) :
    { s with pkt := p : State }.Inv :=
  { h with haltPkt := fun ht => absurd (hh.symm.trans ht) Bool.false_ne_true, pkt := hp }

end State.Inv

/-- Settles O21: each operation a step is made of keeps the invariant. -/
theorem stepKeepsInvariant : Obligations.StepKeepsInvariant := by
  intro s t h hs
  rcases step_cases s with ⟨_, hx⟩ | ⟨more, _, hx⟩ | ⟨b, more, _, _, hx⟩ | ⟨b, more, _, hh, hd, hx⟩ |
    ⟨b, more, rest, _, hh, hd, hx⟩ | ⟨b, more, i, rest, _, hh, hd, hx⟩ <;> rw [hx] at hs
  · cases hs
  · cases hs
    exact (h.set_input more).resetBlock
  · cases hs
    exact h.set_input more
  · cases hs
    exact (h.set_input more).set_pkt hh hd
  · cases hs
    obtain rfl := rest_nil_of_illegal h.pkt hd
    exact (h.set_input more).clear_pkt.raiseStatus .eIllegal fun _ => rfl
  · obtain rfl := rest_nil_of_packet h.pkt hd
    exact (h.set_input more).clear_pkt.exec hs

/-- Settles O20: no byte of `BITS` is listed right after reset. -/
theorem resetHasInvariant : Obligations.ResetHasInvariant := by
  have resetWith_inv (p : Params) (hp : p.WellFormed) : (State.resetWith p).Inv :=
    .resetWith hp Memory.wf_nil fun _ hc => absurd hc List.not_mem_nil
  exact ⟨resetWith_inv, resetWith_inv _ (by decide)⟩

/-! ### What a command writes -/

/-- Settles O24: outside reset a step at most or-s a flag into `ERRFLAGS`. -/
theorem errFlagsAreSticky : Obligations.ErrFlagsAreSticky := by
  intro s t hs hr
  have and_or (e : Status) : s.errFlags &&& (s.errFlags ||| errFlag e) = s.errFlags := by
    ext k hk
    simpa using Or.inl
  rcases step_cases s with ⟨_, hx⟩ | ⟨more, hi, hx⟩ | ⟨b, more, _, _, hx⟩ | ⟨b, more, _, _, _, hx⟩ |
    ⟨b, more, rest, _, _, _, hx⟩ | ⟨b, more, i, rest, _, _, _, hx⟩ <;> rw [hx] at hs
  · cases hs
  · simp [hi] at hr
  · cases hs
    exact BitVec.and_self
  · cases hs
    exact BitVec.and_self
  · cases hs
    exact and_or .eIllegal
  · obtain ⟨e, he⟩ := exec_errFlags hs
    rw [he]
    exact and_or e

/-- Settles O29: `exec_port` for commands, and a step is a command or changes other fields only. -/
theorem portAndParametersUntouched : Obligations.PortAndParametersUntouched := by
  refine ⟨fun i s t => exec_port, fun s t hs => ?_⟩
  rcases step_cases s with ⟨_, hx⟩ | ⟨more, _, hx⟩ | ⟨b, more, _, _, hx⟩ | ⟨b, more, _, _, _, hx⟩ |
    ⟨b, more, rest, _, _, _, hx⟩ | ⟨b, more, i, rest, _, _, _, hx⟩ <;> rw [hx] at hs
  · cases hs
  · cases hs
    rfl
  · cases hs
    rfl
  · cases hs
    rfl
  · cases hs
    rfl
  · obtain ⟨_, _, _, hp⟩ := exec_port hs
    exact hp

/-- Everything but a `CONFIG` that succeeds leaves both configuration registers alone (R14). -/
theorem exec_config_frame {i : Instr} {s t : State} (h : exec i s = .next t) (hi : ∀ hc bc, i ≠ .config hc bc) :
    t.bitCount = s.bitCount ∧ t.hashCount = s.hashCount := by
  cases effect_of_exec h with
  | fail i e he => exact ⟨rfl, rfl⟩
  | hash seed msg => exact ⟨rfl, rfl⟩
  | index d hc => exact ⟨rfl, rfl⟩
  | insert msg hc => simp
  | contains msg r hc hr => simp [hr]
  | config hc bc h0 hlt hfit => exact absurd rfl (hi hc bc)
  | rdarr addr hc ha => exact ⟨rfl, rfl⟩
  | wrarr addr data hc ha => exact ⟨rfl, rfl⟩
  | rdreg regno r hr => exact ⟨rfl, rfl⟩

/-- `CONFIG` succeeds and writes both registers, or meets a condition of `E_CFG` and writes neither (R80). -/
theorem exec_config_outcomes {hc : Word16} {bc : Word32} {s t : State} (h : exec (.config hc bc) s = .next t) :
    (Claims.failureOf (.config hc bc) s = none ∧ t.output = s.output ++ [0x00#8] ∧
      t.bitCount = bc ∧ t.hashCount = hc ∧ bc ≠ 0) ∨
    (Claims.failureOf (.config hc bc) s = some .eCfg ∧ t.output = s.output ++ [0x03#8] ∧
      t.bitCount = s.bitCount ∧ t.hashCount = s.hashCount) := by
  by_cases hr : configRefused bc s = true
  · rw [exec_config_refused hc bc s hr] at h
    cases h
    exact .inr ⟨if_pos ((configRefused_iff bc s).mp hr), rfl, rfl, rfl⟩
  · rw [exec_config hc bc s hr] at h
    cases h
    rw [configRefused_iff] at hr
    exact .inl ⟨if_neg hr, rfl, rfl, rfl, fun h0 => hr (.inl h0)⟩

/-- Settles O25: the frame of every other command, and the two outcomes of `CONFIG`. -/
theorem onlyConfigConfigures : Obligations.OnlyConfigConfigures := by
  intro i s t h
  refine ⟨exec_config_frame h, fun hc bc hi => exec_config_outcomes (hi ▸ h), fun hconf => ?_⟩
  by_cases hi : ∃ hc bc, i = .config hc bc
  · obtain ⟨hc, bc, rfl⟩ := hi
    rcases exec_config_outcomes h with ⟨_, _, hb, _, h0⟩ | ⟨_, _, hb, _⟩
    · rwa [hb]
    · rwa [hb]
  · push Not at hi
    rwa [(exec_config_frame h hi).1]

/-- Settles O27: of the effects of a command only those of a configured `INSERT` or `CONTAINS` reach the two. -/
theorem resultAndProbesWriters : Obligations.ResultAndProbesWriters := by
  intro i s t h
  cases effect_of_exec h with
  | fail i e he => exact ⟨fun _ => rfl, fun _ => rfl⟩
  | hash seed msg => exact ⟨fun _ => rfl, fun _ => rfl⟩
  | index d hc => exact ⟨fun _ => rfl, fun _ => rfl⟩
  | insert msg hc => exact ⟨fun _ => by simp, fun hn => absurd rfl ((hn.resolve_right hc).2 msg)⟩
  | contains msg r hc hr =>
    exact ⟨fun hn => absurd rfl (hn.resolve_right hc msg), fun hn => absurd rfl ((hn.resolve_right hc).1 msg)⟩
  | config hc bc h0 hlt hfit => exact ⟨fun _ => rfl, fun _ => rfl⟩
  | rdarr addr hc ha => exact ⟨fun _ => rfl, fun _ => rfl⟩
  | wrarr addr data hc ha => exact ⟨fun _ => rfl, fun _ => rfl⟩
  | rdreg regno r hr => exact ⟨fun _ => rfl, fun _ => rfl⟩

/-- Settles O28, effect by effect; `BITS` is kept as a whole, so every byte of it is. -/
theorem registerWriters : Obligations.RegisterWriters := by
  intro i s t h
  cases effect_of_exec h with
  | fail i e he => simp [memRead_eq]
  | hash seed msg => simp [memRead_eq]
  | index d hc => simp [memRead_eq]
  | insert msg hc => simp
  | contains msg r hc hr => simp [memRead_eq, hr]
  | config hc bc h0 hlt hfit => simp
  | rdarr addr hc ha => simp [memRead_eq]
  | wrarr addr data hc ha => simp
  | rdreg regno r hr => simp [memRead_eq]

/-! ### Scratch registers -/

/-- The scratch registers and the count of free values replaced (R11). -/
def setScratch (r : HashRegs) (n : Nat) (s : State) : State := { s with hashRegs := r, freeIndex := n }

@[simp] theorem setScratch_hashCount (r : HashRegs) (n : Nat) (s : State) :
    (setScratch r n s).hashCount = s.hashCount := rfl

@[simp] theorem probedBit_setScratch (r : HashRegs) (n : Nat) (s : State) :
    probedBit (setScratch r n s) = probedBit s := rfl

/-- An evaluation overwrites whatever the scratch registers held and reads none of it. -/
theorem evalHash_setScratch (msg : List Byte) (seed : Word32) (r : HashRegs) (n : Nat) (s : State) :
    evalHash msg seed (setScratch r n s) = setScratch (freeHashRegs n) (n + 5) (evalHash msg seed s) := by
  have hd : hashOutput (murmurRegs s.params.seedExt msg seed r) =
      hashOutput (murmurRegs s.params.seedExt msg seed s.hashRegs) := by
    rw [murmurRegs_congr _ _ _ r s.hashRegs]
  exact congrArg (fun d => setScratch (freeHashRegs n) (n + 5) (writeDigest d s)) hd

theorem probe_setScratch (msg : List Byte) (i : Nat) (r : HashRegs) (n : Nat) (s : State) :
    probe msg i (setScratch r n s) = setScratch (freeHashRegs n) (n + 5) (probe msg i s) := by
  rw [probe, evalHash_setScratch]
  rfl

theorem insertLoop_setScratch (msg : List Byte) (k i : Nat) (r : HashRegs) (n : Nat) (s : State) :
    ∃ r' n', insertLoop msg k i (setScratch r n s) = setScratch r' n' (insertLoop msg k i s) := by
  induction k generalizing i r n s with
  | zero => exact ⟨r, n, rfl⟩
  | succ k ih =>
    rw [insertLoop, insertLoop, probe_setScratch]
    exact ih (i + 1) (freeHashRegs n) (n + 5) (setProbedBit (probe msg i s))

theorem containsLoop_setScratch (msg : List Byte) (k i : Nat) (r : HashRegs) (n : Nat) (s : State) :
    ∃ r' n', containsLoop msg k i (setScratch r n s) =
      { containsLoop msg k i s with state := setScratch r' n' (containsLoop msg k i s).state } := by
  induction k generalizing i r n s with
  | zero => exact ⟨r, n, rfl⟩
  | succ k ih =>
    simp only [containsLoop, probe_setScratch, probedBit_setScratch]
    split
    · exact ih (i + 1) (freeHashRegs n) (n + 5) (probe msg i s)
    · exact ⟨freeHashRegs n, n + 5, rfl⟩

/-- A command does the same from other scratch values, up to scratch values (R11). -/
theorem exec_setScratch (i : Instr) (r : HashRegs) (n : Nat) (s : State) :
    ∃ r' n', exec i (setScratch r n s) = Claims.mapNext (setScratch r' n') (exec i s) := by
  cases i with
  | hash seed msg =>
    exact ⟨freeHashRegs n, n + 5, by simp only [exec, execHash, evalHash_setScratch]; rfl⟩
  | index d => exact ⟨r, n, by simp only [exec, execIndex, apply_ite (Claims.mapNext _)]; rfl⟩
  | insert msg =>
    by_cases hc : s.bitCount = 0
    · refine ⟨r, n, ?_⟩
      rw [exec_of_unconfigured hc (by simp), exec_of_unconfigured (s := setScratch r n s) hc (by simp)]
      rfl
    · obtain ⟨r', n', hl⟩ := insertLoop_setScratch msg s.hashCount.toNat 0 r n s
      refine ⟨r', n', ?_⟩
      rw [exec_insert msg s hc, exec_insert msg (setScratch r n s) hc, setScratch_hashCount, hl]
      rfl
  | contains msg =>
    by_cases hc : s.bitCount = 0
    · refine ⟨r, n, ?_⟩
      rw [exec_of_unconfigured hc (by simp), exec_of_unconfigured (s := setScratch r n s) hc (by simp)]
      rfl
    · obtain ⟨r', n', hl⟩ := containsLoop_setScratch msg s.hashCount.toNat 0 r n s
      refine ⟨r', n', ?_⟩
      rw [exec_contains msg s hc, exec_contains msg (setScratch r n s) hc, setScratch_hashCount, hl]
      rfl
  | config hc bc => exact ⟨r, n, by simp only [exec, execConfig, apply_ite (Claims.mapNext _)]; rfl⟩
  | rdarr addr => exact ⟨r, n, by simp only [exec, execRdarr, apply_ite (Claims.mapNext _)]; rfl⟩
  | wrarr addr data => exact ⟨r, n, by simp only [exec, execWrarr, apply_ite (Claims.mapNext _)]; rfl⟩
  | rdreg regno =>
    refine ⟨r, n, ?_⟩
    simp only [exec, execRdreg]
    cases regOf regno <;> rfl

/-- Settles O30. Both runs take the same branches, since no test reads a scratch register. -/
theorem scratchIsUnobservable : Obligations.ScratchIsUnobservable := by
  intro i s t r n h
  obtain ⟨r', n', hx⟩ := exec_setScratch i r n s
  rw [h] at hx
  exact ⟨_, hx, rfl⟩

/-! ### `INSERT` below `BITCOUNT` -/

/-- The byte and the mask of an address select the filter bit of its index and no other (R60, R62). -/
theorem bitIndex_of_selected {d : Digest} {bc : Word32} {i : Nat} (h : bc ≠ 0)
    (hbyte : (bitAddress d bc).byteIndex.toNat = i / 8) (hmask : (bitAddress d bc).mask.getLsbD (7 - i % 8) = true) :
    (bitAddress d bc).bitIndex.toNat = i := by
  rw [bitAddress_byteIndex_toNat d h] at hbyte
  rw [bitAddress_mask d h, maskOf_getLsbD _ _ (by omega), decide_eq_true_eq] at hmask
  omega

/-- Settles O47: a bit `INSERT` sets is the bit of a probe, which lies below `BITCOUNT`. -/
theorem insertLeavesPadding : Obligations.InsertLeavesPadding := by
  intro s t msg i h hc hx hi
  rw [exec_insert msg s hc] at hx
  cases hx
  have hread : memRead (i / 8) (insertLoop msg s.hashCount.toNat 0 s) = _ := memRead_insertLoop msg _ 0 (i / 8) s h.bits
  rw [Bool.eq_iff_iff]
  show (memRead (i / 8) (insertLoop msg s.hashCount.toNat 0 s)).getLsbD (7 - i % 8) = true ↔ _
  rw [hread, insertedFrom_getLsbD]
  refine or_iff_left ?_
  rintro ⟨j, _, _, hbyte, hmask⟩
  have := bitIndex_of_selected hc hbyte hmask
  have := bitAddress_bitIndex_lt (murmur128 s.params.seedExt msg (BitVec.ofNat 32 j)) hc
  omega

/-! ### Reset and the register map -/

/-- Settles O18. What `BITS` holds stays a variable: the commands are refused before they read it, and `CONFIG` clears
every byte it makes reachable. -/
theorem resetValues : Obligations.ResetValues := by
  intro p
  refine ⟨rfl, rfl, rfl, rfl, rfl, rfl, rfl, rfl, rfl, rfl, rfl, fun bits => ⟨?_, ?_, ?_, ?_⟩⟩
  · intro i hi
    rw [exec_of_unconfigured rfl hi]
    simp [raiseStatus, respond, State.resetWith, errFlag, haltsBlock, statusCode]
  · intro seed msg
    exact ⟨_, exec_hash seed msg _, rfl, rfl⟩
  · intro regno r hr
    rw [exec_rdreg regno r _ hr]
    cases r <;> rfl
  · intro hc bc hmsb h0 hfit
    have hr : ¬ configRefused bc { State.resetWith p with bits := bits } = true := by
      rw [configRefused_iff]
      rw [BitVec.msb_eq_false_iff_two_mul_lt] at hmsb
      rintro (h | h | h)
      · exact h0 h
      · omega
      · exact Nat.not_lt.mpr hfit h
    refine ⟨_, exec_config hc bc _ hr, rfl, rfl, rfl, fun a ha => ?_⟩
    exact (Memory.read_clearBelow bits (arrayBytes bc) a).trans (if_pos ha)

/-- The fields of the `STATUS` word, from bit 0 up (R18). -/
theorem statusWord_getLsbD (s : State) (k : Nat) : (statusWord s).getLsbD k =
    if k < 1 then (BitVec.ofBool s.result).getLsbD k
    else if k - 1 < 1 then (BitVec.ofBool (cfgd s)).getLsbD (k - 1)
    else if k - 2 < 6 then false
    else if k - 8 < 8 then s.errFlags.getLsbD (k - 8)
    else s.probes.getLsbD (k - 16) := by
  have happend : (statusWord s).getLsbD k = BitVec.getLsbD (w := 16 + 8 + 6 + 1 + 1)
      (s.probes ++ s.errFlags ++ 0#6 ++ BitVec.ofBool (cfgd s) ++ BitVec.ofBool s.result) k := rfl
  rw [happend]
  simp only [BitVec.getLsbD_append, BitVec.getLsbD_zero, Nat.sub_sub]

theorem regOf_eq_none_iff (n : Byte) : regOf n = none ↔ n = 0x07#8 ∨ 0x0C#8 ≤ n := by
  revert n
  decide

theorem digestWord_toNat (d : Digest) {a : Nat} (ha : a ≤ 12) :
    (digestWord d a).toNat = beNat ((d.toList.drop a).take 4) := by
  have hlen : ((d.toList.drop a).take 4).length = 4 := by simp; omega
  have hlt := beNat_lt ((d.toList.drop a).take 4)
  rw [hlen] at hlt
  rw [digestWord, be32, BitVec.toNat_ofNat, Nat.mod_eq_of_lt (by omega)]

/-- `DIGEST0` to `DIGEST3` in order are the digest read big-endian (R18, R61). -/
theorem beNat_digest (d : Digest) : beNat d.toList = (digestWord d 0).toNat * 2 ^ 96 +
    (digestWord d 4).toNat * 2 ^ 64 + (digestWord d 8).toNat * 2 ^ 32 + (digestWord d 12).toNat := by
  have hsplit (a : Nat) (ha : a ≤ 12) : beNat (d.toList.drop a) =
      (digestWord d a).toNat * 256 ^ (12 - a) + beNat (d.toList.drop (a + 4)) := by
    have hlen : (d.toList.drop (a + 4)).length = 12 - a := by simp
    rw [digestWord_toNat d ha, ← hlen, ← beNat_append, ← List.drop_drop, List.take_append_drop]
  have h16 : d.toList.drop 16 = [] := List.drop_eq_nil_of_le (by simp)
  have h0 := hsplit 0 (by omega)
  rw [List.drop_zero, hsplit 4 (by omega), hsplit 8 (by omega), hsplit 12 (by omega), h16, beNat_nil] at h0
  rw [h0]
  ring

/-- Settles O53. `STATUS[8]` is `F_ILLEGAL`, which the invariant ties to `HALT`; `STATUS[15:13]` are `ERRFLAGS` bits
5 to 7. -/
theorem registerMap : Obligations.RegisterMap := by
  intro s
  have hnb : nbytes s < 2 ^ 32 := by
    have := s.bitCount.isLt
    rw [nbytes, arrayBytes]
    omega
  have errBit (k : Nat) (hk : k < 8) : (regValue .status s).getLsbD (8 + k) = s.errFlags.getLsbD k := by
    rw [regValue, statusWord_getLsbD, if_neg (by omega), if_neg (by omega), if_neg (by omega), if_pos (by omega),
      Nat.add_sub_cancel_left]
  refine ⟨⟨rfl, rfl, rfl, rfl, rfl, rfl, rfl, rfl, rfl, rfl, rfl, regOf_eq_none_iff⟩,
    ⟨rfl, ?_, ?_, rfl, rfl, ?_, beNat_digest s.digest⟩, ⟨?_, ?_, ?_, errBit, ?_⟩, ?_, ?_⟩
  · exact BitVec.toNat_setWidth_of_le (by omega)
  · exact Nat.mod_eq_of_lt hnb
  · exact BitVec.toNat_setWidth_of_le (by omega)
  · rw [regValue, statusWord_getLsbD]
    simp
  · rw [regValue, statusWord_getLsbD]
    rw [Bool.eq_iff_iff]
    simp [cfgd]
  · intro k h2 h7
    rw [regValue, statusWord_getLsbD, if_neg (by omega), if_neg (by omega), if_pos (by omega)]
  · intro k hk
    rw [regValue, statusWord_getLsbD, if_neg (by omega), if_neg (by omega), if_neg (by omega), if_neg (by omega),
      Nat.add_sub_cancel_left]
  · intro h hh
    rw [← hh, h.halt]
    exact errBit 0 (by omega)
  · intro h k h13 h15
    obtain ⟨j, rfl⟩ := Nat.exists_eq_add_of_le (show 8 ≤ k by omega)
    rw [errBit j (by omega)]
    exact Nat.testBit_lt_two_pow (h.errFlags.trans_le (Nat.pow_le_pow_right Nat.two_pos (by omega : 5 ≤ j)))

end Sys2Proof.Machine
end

section
/-! The obligations of 30_encoding.md: the decoder and the encoder undo each other, the port runs a packet byte by byte,
and every command answers once. -/

namespace Sys2Proof.Machine

/-! ### Decoding what was encoded -/

/-- Settles O1: a packet's own header gives its length (`Laws.Framing.all`), and its operands read back
(`operands_encode`). -/
theorem decodeOfEncode : Obligations.DecodeOfEncode := by
  intro i rest hwf
  obtain ⟨b, p, he, ho⟩ := encode_eq_cons i
  have hn := Laws.Framing.all i hwf rest
  have hd : decode (encode i ++ rest) = .packet (operands (opcodeOfInstr i) ((encode i ++ rest).take (encode i).length))
      ((encode i ++ rest).drop (encode i).length) := by
    rw [he, List.cons_append] at hn ⊢
    simp only [decode, ho, hn]
    exact if_neg (by simp)
  rw [hd, List.take_left, List.drop_left, operands_encode]

/-! ### Encoding what was decoded -/

theorem field_length {p : List Byte} {a n : Nat} (h : a + n ≤ p.length) : (field p a n).length = n := by
  rw [field, List.length_take, List.length_drop]
  omega

/-- A field and what stands after it. -/
theorem field_append_drop (p : List Byte) (a n : Nat) : field p a n ++ p.drop (a + n) = p.drop a := by
  rw [field, ← List.drop_drop, List.take_append_drop]

/-- A field at the end of some bytes. -/
theorem field_eq_drop {p : List Byte} {a n : Nat} (h : p.length = a + n) : field p a n = p.drop a :=
  List.take_of_length_le (by rw [List.length_drop]; omega)

/-- The last byte as an operand. -/
theorem singleton_getD_eq_drop {p : List Byte} {a : Nat} (h : p.length = a + 1) : [p.getD a 0] = p.drop a := by
  rw [List.drop_eq_getElem_cons (by omega), List.drop_eq_nil_of_le (by omega), List.getD_eq_getElem p 0 (by omega)]

/-- A payload as long as the `len` field at `a` says fits and, put behind its length, gives the bytes from `a` on
(R33, R35). -/
theorem payload_of_length {p : List Byte} {a : Nat} (h : p.length = a + 4 + beNat (field p a 4)) :
    MessageFits (p.drop (a + 4)) ∧
    bytesBe32 (BitVec.ofNat 32 (p.drop (a + 4)).length) ++ p.drop (a + 4) = p.drop a := by
  have hf : (field p a 4).length = 4 := field_length (by omega)
  have hlen : (p.drop (a + 4)).length = beNat (field p a 4) := by rw [List.length_drop]; omega
  constructor
  · have := beNat_lt (field p a 4)
    rw [hf] at this
    rwa [MessageFits, hlen]
  · rw [hlen, ← be32, bytesBe32_be32 _ hf, field_append_drop]

theorem opcodeOfInstr_operands (op : Opcode) (p : List Byte) : opcodeOfInstr (operands op p) = op := by
  cases op <;> rfl

theorem opcodeOf_injective {b c : Byte} {op : Opcode} (hb : opcodeOf b = some op) (hc : opcodeOf c = some op) :
    b = c := by
  have h := opcodeOf_eq_some hb
  have h' := opcodeOf_eq_some hc
  cases op <;> simp_all

/-- Operand assembly drops no bit of a whole packet: everything after the opcode is encoded again (R35, R36). -/
theorem encode_operands_tail (op : Opcode) {p : List Byte} (h : p.length = headerLength op + payloadLength op p) :
    (operands op p).WellFormed ∧ (encode (operands op p)).tail = p.drop 1 := by
  cases op with
  | hash =>
    have hlen : p.length = 5 + 4 + beNat (field p 5 4) := h
    obtain ⟨hfits, hpayload⟩ := payload_of_length hlen
    have hseed : bytesBe32 (be32 (field p 1 4)) = field p 1 4 := bytesBe32_be32 _ (field_length (by omega))
    refine ⟨hfits, ?_⟩
    simp only [operands, encode, List.tail_cons, List.append_assoc]
    rw [hpayload, hseed, field_append_drop]
  | index =>
    have hlen : p.length = 1 + 16 := h
    refine ⟨trivial, ?_⟩
    simp only [operands, encode, List.tail_cons]
    rw [digestOfList_toList_of_length _ (field_length hlen.ge), field_eq_drop hlen]
  | insert => exact payload_of_length (a := 1) h
  | contains => exact payload_of_length (a := 1) h
  | config =>
    have hlen : p.length = 3 + 4 := h
    refine ⟨trivial, ?_⟩
    simp only [operands, encode, List.tail_cons]
    rw [bytesBe16_be16 _ (field_length (by omega)), bytesBe32_be32 _ (field_length hlen.ge), field_eq_drop hlen,
      field_append_drop]
  | rdarr =>
    have hlen : p.length = 1 + 4 := h
    refine ⟨trivial, ?_⟩
    simp only [operands, encode, List.tail_cons]
    rw [bytesBe32_be32 _ (field_length hlen.ge), field_eq_drop hlen]
  | wrarr =>
    have hlen : p.length = 5 + 1 := h
    refine ⟨trivial, ?_⟩
    simp only [operands, encode, List.tail_cons]
    rw [bytesBe32_be32 _ (field_length (by omega)), singleton_getD_eq_drop hlen, field_append_drop]
  | rdreg => exact ⟨trivial, singleton_getD_eq_drop (a := 1) h⟩

/-- Bytes that are one whole packet are the packet of the operands assembled from them (R33, R35, R36). -/
theorem encode_operands {b : Byte} {l : List Byte} {op : Opcode} (ho : opcodeOf b = some op)
    (hn : packetLength (b :: l) = some (b :: l).length) :
    (operands op (b :: l)).WellFormed ∧ encode (operands op (b :: l)) = b :: l := by
  rw [packetLength_cons b l op ho, Option.ite_none_left_eq_some, Option.some_inj] at hn
  obtain ⟨hwf, htail⟩ := encode_operands_tail op hn.2.symm
  obtain ⟨c, m, he, hc⟩ := encode_eq_cons (operands op (b :: l))
  rw [opcodeOfInstr_operands] at hc
  rw [he, List.tail_cons, List.drop_one, List.tail_cons] at htail
  exact ⟨hwf, by rw [he, htail, opcodeOf_injective hc ho]⟩

/-- Settles O2: the decoder cuts off a whole packet, and that is the packet of its operands. -/
theorem encodeOfDecode : Obligations.EncodeOfDecode := by
  intro p i rest h
  rcases decode_cases p with ⟨_, hd⟩ | ⟨_, _, _, _, hd⟩ | ⟨_, _, _, _, _, _, hd⟩ |
    ⟨b, l, op, n, rfl, ho, hn, ⟨_, hd⟩ | ⟨hle, hd⟩⟩
  · simp [hd] at h
  · simp [hd] at h
  · simp [hd] at h
  · simp [hd] at h
  · obtain ⟨rfl, rfl⟩ := Decoded.packet.inj (hd.symm.trans h)
    obtain ⟨m, rfl⟩ := Nat.exists_eq_succ_of_ne_zero (packetLength_pos hn).ne'
    have hlen : ((b :: l).take (m + 1)).length = m + 1 := List.length_take_of_le hle
    have hw : packetLength ((b :: l).take (m + 1)) = some ((b :: l).take (m + 1)).length := by
      rw [hlen]
      exact packetLength_of_append (q := (b :: l).drop (m + 1)) (by rwa [List.take_append_drop])
        (List.cons_ne_nil _ _) hlen.ge
    obtain ⟨hwf, he⟩ := encode_operands ho hw
    exact ⟨hwf, by rw [List.take_succ_cons, he, ← List.take_succ_cons, List.take_append_drop]⟩

/-! ### Incomplete packets and the opcode map -/

/-- Settles O5: what the first bytes decode to, a longer stream decodes to as well, with more left over. -/
theorem prefixesAreIncomplete : Obligations.PrefixesAreIncomplete := by
  intro i q r hwf he hr
  cases hd : decode q with
  | incomplete => rfl
  | illegal rest =>
    obtain ⟨b, rfl, hb⟩ := eq_cons_of_decode_illegal hd
    obtain ⟨c, p, hc, ho⟩ := encode_eq_cons i
    obtain ⟨rfl, _⟩ := List.cons.inj (hc.symm.trans he)
    simp [hb] at ho
  | packet j rest =>
    obtain ⟨hj, rfl⟩ := encodeOfDecode q j rest hd
    have hi := decodeOfEncode i [] hwf
    rw [List.append_nil, he, List.append_assoc, decodeOfEncode j _ hj] at hi
    obtain ⟨_, hrest⟩ := Decoded.packet.inj hi
    exact absurd (List.append_eq_nil_iff.mp hrest).2 hr

theorem opcodeOf_eq_none_iff (b : Byte) : opcodeOf b = none ↔ Claims.IllegalOpcode b := by
  revert b
  decide

theorem decode_illegal_iff (b : Byte) (rest : List Byte) : decode (b :: rest) = .illegal rest ↔ opcodeOf b = none := by
  constructor
  · intro h
    obtain ⟨c, hc, ho⟩ := eq_cons_of_decode_illegal h
    rwa [(List.cons.inj hc).1]
  · intro ho
    simp only [decode, ho]

/-- Settles O3: the decoder calls a first byte illegal exactly where the opcode map has no opcode. -/
theorem opcodeMapIsTheTable : Obligations.OpcodeMapIsTheTable :=
  ⟨fun b rest => (decode_illegal_iff b rest).trans (opcodeOf_eq_none_iff b), fun _ _ => rfl, fun _ => rfl,
    fun _ => rfl, fun _ => rfl, fun _ _ => rfl, fun _ => rfl, fun _ _ => rfl, fun _ => rfl⟩

/-- Where the opcode alone fixes the length, it does so whatever follows (R33). -/
theorem packetLength_of_constant {op : Opcode} {b : Byte} (ho : opcodeOf b = some op) (hk : lengthKnownAfter op = 1)
    (tail : List Byte) : packetLength (b :: tail) = some (headerLength op + payloadLength op (b :: tail)) := by
  rw [packetLength_cons b tail op ho, hk, if_neg (by simp)]

/-- Settles O4, format by format: the length is known after the opcode alone, or after the `len` field. -/
theorem packetLengthsAreTheTables : Obligations.PacketLengthsAreTheTables := by
  intro b tail
  refine ⟨fun h => ?_, ?_, ?_, ?_, ?_, ?_, ?_, ?_⟩
  · simp only [packetLength, (opcodeOf_eq_none_iff b).mpr h]
  · rintro rfl
    exact packetLength_cons _ tail .hash rfl
  · rintro (rfl | rfl)
    · exact packetLength_cons _ tail .insert rfl
    · exact packetLength_cons _ tail .contains rfl
  · rintro rfl
    exact packetLength_of_constant (op := .index) rfl rfl tail
  · rintro rfl
    exact packetLength_of_constant (op := .config) rfl rfl tail
  · rintro rfl
    exact packetLength_of_constant (op := .rdarr) rfl rfl tail
  · rintro rfl
    exact packetLength_of_constant (op := .wrarr) rfl rfl tail
  · rintro rfl
    exact packetLength_of_constant (op := .rdreg) rfl rfl tail

/-- Settles O6: nine closed evaluations of the decoder, one `decide` each. -/
theorem specPacketsDecode : Obligations.SpecPacketsDecode :=
  ⟨by decide, by decide, by decide, by decide, by decide, by decide, by decide, by decide, by decide⟩

/-! ### A packet at the port -/

/-- Settles O7: what `acceptByte` does with a packet its byte completes. -/
theorem stepRunsDecodedCommand : Obligations.StepRunsDecodedCommand := by
  intro s b more i rest hh hi hd
  rw [step_byte s b more hi hh]
  simp only [acceptByte, hd]

/-- A byte that completes no packet joins `PKT` (R20, R34). -/
theorem step_of_incomplete {s : State} {b : Byte} {more : List HostEvent} (hh : s.halt = false)
    (hi : s.input = .byte b :: more) (hd : decode (s.pkt ++ [b]) = .incomplete) :
    step s = .next { s with input := more, pkt := s.pkt ++ [b] } := by
  rw [step_byte s b more hi hh]
  simp only [acceptByte, hd]

theorem runSteps_one (s : State) : runSteps 1 s = step s := by
  rw [runSteps]
  cases step s <;> rfl

/-- The rest `r` of a packet whose first part is in `PKT`: every byte but the last waits, the last one executes (R34). -/
theorem runSteps_rest_of_packet {i : Instr} (hwf : i.WellFormed) (more : List HostEvent) {r : List Byte} (hr : r ≠ []) :
    ∀ s : State, s.halt = false → s.input = bytesIn r ++ more → encode i = s.pkt ++ r →
      runSteps r.length s = exec i { s with input := more, pkt := [] } := by
  induction r with
  | nil => exact absurd rfl hr
  | cons b r ih =>
    intro s hh hi he
    rw [List.append_cons] at he
    by_cases hlast : r = []
    · subst hlast
      have hd := decodeOfEncode i [] hwf
      rw [List.append_nil, he, List.append_nil] at hd
      rw [List.length_singleton, runSteps_one]
      exact stepRunsDecodedCommand s b more i [] hh hi hd
    · have hd := prefixesAreIncomplete i (s.pkt ++ [b]) r hwf he hlast
      rw [List.length_cons, runSteps_succ_of_next _ (step_of_incomplete hh hi hd)]
      exact ih hlast _ hh rfl he

/-- Settles O9: at a packet boundary the rest of the packet is all of it. -/
theorem bytesRefineCommands : Obligations.BytesRefineCommands := by
  intro s i more hwf hh hp hi
  rw [runSteps_rest_of_packet hwf more (encode_ne_nil i) s hh hi (by rw [hp, List.nil_append]), ← hp]

/-! ### A packet placed by `withFetchWord` -/

theorem headerLength_le (op : Opcode) : headerLength op ≤ 17 := by cases op <;> decide

/-- As many bytes as the longest header has fix a packet's length, whatever follows (R33). -/
theorem packetLength_of_long {p : List Byte} (h : 17 ≤ p.length) :
    ∃ n, packetLength p = some n ∧ ∀ q, packetLength (p ++ q) = some n := by
  obtain ⟨b, l, rfl⟩ := List.exists_cons_of_length_pos (show 0 < p.length by omega)
  cases ho : opcodeOf b with
  | none => exact ⟨1, by simp only [packetLength, ho], fun q => by simp only [List.cons_append, packetLength, ho]⟩
  | some op =>
    have hk := lengthKnownAfter_le_headerLength op
    have hh := headerLength_le op
    refine ⟨headerLength op + payloadLength op (b :: l), ?_, fun q => ?_⟩
    · rw [packetLength_cons b l op ho, if_neg (by omega)]
    · rw [List.cons_append, packetLength_cons b _ op ho, ← List.cons_append, payloadLength_append op _ q (by omega),
        if_neg (by rw [List.length_append]; omega)]

theorem padTo_length (n : Nat) (p : List Byte) : (padTo n p).length = n := by
  rw [padTo, List.length_take, List.length_append, List.length_replicate]
  omega

theorem padTo_prefix (n : Nat) (p : List Byte) : padTo n p <+: p ++ List.replicate (n - p.length) 0#8 :=
  List.take_prefix n _

/-- A packet built from a word of the table is one whole packet: neither short nor with bytes behind it (log 9). -/
theorem packetLength_tablePacket (nbits w : Nat) :
    packetLength (tablePacket nbits w) = some (tablePacket nbits w).length := by
  obtain ⟨n, hn, happend⟩ := packetLength_of_long (show 17 ≤ (tableBytes nbits w).length by simp [tableBytes])
  have hne : padTo n (tableBytes nbits w) ≠ [] :=
    List.ne_nil_of_length_pos (by rw [padTo_length]; exact packetLength_pos hn)
  rw [tablePacket, hn, Option.getD_some, padTo_length]
  obtain ⟨rest, hrest⟩ := padTo_prefix n (tableBytes nbits w)
  exact packetLength_of_append (hrest ▸ happend _) hne (padTo_length n _).ge

/-- The decoder takes the whole packet of a word of the table, so nothing is left over (log 9). -/
theorem decode_tablePacket {nbits w : Nat} {i : Instr} (h : decodeTableWord nbits w = some i) :
    decode (tablePacket nbits w) = .packet i [] := by
  have hlen := packetLength_tablePacket nbits w
  rw [decodeTableWord] at h
  cases hd : decode (tablePacket nbits w) with
  | incomplete => simp [hd] at h
  | illegal rest => simp [hd] at h
  | packet j rest =>
    obtain rfl : j = i := by simpa [hd] using h
    obtain ⟨hwf, he⟩ := encodeOfDecode _ _ _ hd
    have hn := Laws.Framing.all j hwf rest
    rw [← he, hlen, Option.some_inj, he, List.length_append, Nat.add_eq_left, List.length_eq_zero_iff] at hn
    rw [hn]

/-- Settles O8: the last byte of the packet, alone in front of `input`, completes what is in `PKT`. -/
theorem fetchWordRunsNext : Obligations.FetchWordRunsNext := by
  intro s nbits w i h
  have hd := decode_tablePacket h
  have hne : tablePacket nbits w ≠ [] := by
    intro h0
    simp [h0, decode] at hd
  rw [← List.dropLast_append_getLast hne] at hd
  refine stepRunsDecodedCommand _ ((tablePacket nbits w).getLast hne) s.input i [] rfl ?_ hd
  show bytesIn ((tablePacket nbits w).drop ((tablePacket nbits w).length - 1)) ++ s.input = _
  rw [List.drop_length_sub_one hne]
  rfl

/-! ### Responses -/

/-- The codes a command can fail with lie between `02` and `05` (R100). -/
theorem statusCode_bounds {e : Status} (h : e = .eNocfg ∨ e = .eCfg ∨ e = .eAddr ∨ e = .eReg) :
    0x02#8 ≤ statusCode e ∧ statusCode e ≤ 0x05#8 := by
  rcases h with rfl | rfl | rfl | rfl <;> decide

/-- Settles O23: no operation before the response sends a byte. -/
theorem oneResponsePerCommand : Obligations.OneResponsePerCommand := by
  intro i s
  rcases exec_cases i s with ⟨e, he, hx⟩ | ⟨seed, msg, rfl, hx⟩ | ⟨d, rfl, _, hx⟩ | ⟨msg, rfl, _, hx⟩ |
    ⟨msg, r, rfl, _, rfl, hx⟩ | ⟨hc, bc, rfl, _, _, _, hx⟩ | ⟨addr, rfl, _, _, hx⟩ |
    ⟨addr, data, rfl, _, _, hx⟩ | ⟨regno, r, rfl, _, hx⟩
  · obtain ⟨h2, h5⟩ := statusCode_bounds he
    exact ⟨_, hx, .inr ⟨_, h2, h5, rfl⟩⟩
  · exact ⟨_, hx, .inl ⟨_, rfl, Vector.length_toList⟩⟩
  · exact ⟨_, hx, .inl ⟨_, rfl, rfl⟩⟩
  · have hsent := insertLoop_output msg s.hashCount.toNat 0 s
    exact ⟨_, hx, .inl ⟨[], congrArg (· ++ _) hsent, rfl⟩⟩
  · have hsent := containsLoop_output msg s.hashCount.toNat 0 s
    exact ⟨_, hx, .inl ⟨[_], congrArg (· ++ _) hsent, rfl⟩⟩
  · exact ⟨_, hx, .inl ⟨_, rfl, rfl⟩⟩
  · exact ⟨_, hx, .inl ⟨_, rfl, rfl⟩⟩
  · exact ⟨_, hx, .inl ⟨_, rfl, rfl⟩⟩
  · exact ⟨_, hx, .inl ⟨_, rfl, rfl⟩⟩

/-! ### What a command never reads at the port -/

/-- Responses `o` already sent and events `e` of the host still to come, around those of a state. -/
def withPort (o : List Byte) (e : List HostEvent) (s : State) : State :=
  { s with output := o ++ s.output, input := s.input ++ e }

section
variable (o : List Byte) (e : List HostEvent)

theorem respond_withPort (b : List Byte) (s : State) : respond b (withPort o e s) = withPort o e (respond b s) := by
  rw [respond, respond, withPort, withPort]
  simp only [List.append_assoc]

theorem respondOk_withPort (b : List Byte) (s : State) :
    respondOk b (withPort o e s) = withPort o e (respondOk b s) := respond_withPort o e _ s

theorem raiseStatus_withPort (c : Status) (s : State) :
    raiseStatus c (withPort o e s) = withPort o e (raiseStatus c s) :=
  respond_withPort o e [statusCode c] { s with errFlags := s.errFlags ||| errFlag c, halt := s.halt || haltsBlock c }

/-- The two ways a command ends. -/
theorem mapNext_withPort_respondOk (b : List Byte) (s : State) :
    Claims.mapNext (withPort o e) (.next (respondOk b s)) = .next (respondOk b (withPort o e s)) :=
  congrArg Host.Outcome.next (respondOk_withPort o e b s).symm

theorem mapNext_withPort_raiseStatus (c : Status) (s : State) :
    Claims.mapNext (withPort o e) (.next (raiseStatus c s)) = .next (raiseStatus c (withPort o e s)) :=
  congrArg Host.Outcome.next (raiseStatus_withPort o e c s).symm

theorem insertLoop_withPort (msg : List Byte) (n i : Nat) (s : State) :
    insertLoop msg n i (withPort o e s) = withPort o e (insertLoop msg n i s) := by
  induction n generalizing i s with
  | zero => rfl
  | succ n ih => exact ih (i + 1) (setProbedBit (probe msg i s))

theorem containsLoop_withPort (msg : List Byte) (n i : Nat) (s : State) :
    containsLoop msg n i (withPort o e s) =
      { containsLoop msg n i s with state := withPort o e (containsLoop msg n i s).state } := by
  induction n generalizing i s with
  | zero => rfl
  | succ n ih =>
    have hp : probe msg i (withPort o e s) = withPort o e (probe msg i s) := rfl
    have hb : probedBit (withPort o e (probe msg i s)) = probedBit (probe msg i s) := rfl
    simp only [containsLoop, hp, hb]
    split
    · exact ih (i + 1) (probe msg i s)
    · rfl

/-- A command neither reads the responses sent before it nor the events after it (R34, R115). -/
theorem exec_withPort (i : Instr) (s : State) :
    exec i (withPort o e s) = Claims.mapNext (withPort o e) (exec i s) := by
  have hok := mapNext_withPort_respondOk o e
  have hfail := mapNext_withPort_raiseStatus o e
  cases i with
  | hash seed msg =>
    rw [exec_hash, exec_hash, hok]
    rfl
  | index d => simp only [exec, execIndex, apply_ite (Claims.mapNext _), hok, hfail]; rfl
  | insert msg =>
    simp only [exec, execInsert, apply_ite (Claims.mapNext _), hok, hfail, insertLoop_withPort]; rfl
  | contains msg =>
    simp only [exec, execContains, apply_ite (Claims.mapNext _), hok, hfail, containsLoop_withPort]; rfl
  | config hc bc => simp only [exec, execConfig, apply_ite (Claims.mapNext _), hok, hfail]; rfl
  | rdarr addr => simp only [exec, execRdarr, apply_ite (Claims.mapNext _), hok, hfail]; rfl
  | wrarr addr data => simp only [exec, execWrarr, apply_ite (Claims.mapNext _), hok, hfail]; rfl
  | rdreg regno =>
    simp only [exec, execRdreg]
    cases regOf regno with
    | none => exact (hfail _ _).symm
    | some r => exact (hok _ _).symm

theorem acceptByte_withPort (b : Byte) (s : State) :
    acceptByte b (withPort o e s) = Claims.mapNext (withPort o e) (acceptByte b s) := by
  have hp : (withPort o e s).pkt = s.pkt := rfl
  simp only [acceptByte, hp]
  cases decode (s.pkt ++ [b]) with
  | incomplete => rfl
  | illegal rest => exact (mapNext_withPort_raiseStatus o e .eIllegal { s with pkt := rest }).symm
  | packet i rest => exact exec_withPort o e i { s with pkt := rest }

/-- A step that has an event to take takes that one, whatever comes after it (R34). -/
theorem step_withPort {s : State} (hi : s.input ≠ []) :
    step (withPort o e s) = Claims.mapNext (withPort o e) (step s) := by
  obtain ⟨event, more, hi⟩ := List.exists_cons_of_ne_nil hi
  have hi' : (withPort o e s).input = event :: (more ++ e) := congrArg (· ++ e) hi
  cases event with
  | reset =>
    rw [step_reset s more hi, step_reset _ _ hi']
    rfl
  | byte b =>
    rcases Bool.eq_false_or_eq_true s.halt with hh | hh
    · rw [step_halted s b more hi hh, step_halted (withPort o e s) b _ hi' hh]
      rfl
    · rw [step_byte s b more hi hh, step_byte (withPort o e s) b _ hi' hh]
      exact acceptByte_withPort o e b { s with input := more }

end

/-! ### Delivery in pieces -/

/-- A step takes one event. -/
theorem step_input {s t : State} (h : step s = .next t) : t.input = s.input.tail := by
  rcases step_cases s with ⟨_, hx⟩ | ⟨more, hi, hx⟩ | ⟨b, more, hi, _, hx⟩ | ⟨b, more, hi, _, _, hx⟩ |
    ⟨b, more, rest, hi, _, _, hx⟩ | ⟨b, more, i, rest, hi, _, _, hx⟩ <;> rw [hx] at h
  · cases h
  · cases h
    exact (congrArg List.tail hi).symm
  · cases h
    exact (congrArg List.tail hi).symm
  · cases h
    exact (congrArg List.tail hi).symm
  · cases h
    exact (congrArg List.tail hi).symm
  · obtain ⟨_, _, hin, _⟩ := exec_port h
    exact hin.trans (congrArg List.tail hi).symm

/-- Events that come later change nothing for the steps that take the earlier ones (R34). -/
theorem runSteps_withPort (o : List Byte) (e : List HostEvent) (k : Nat) (s : State) (hk : k ≤ s.input.length) :
    runSteps k (withPort o e s) = Claims.mapNext (withPort o e) (runSteps k s) := by
  induction k generalizing s with
  | zero => rfl
  | succ k ih =>
    rw [runSteps, runSteps, step_withPort o e (List.ne_nil_of_length_pos (by omega))]
    cases hs : step s with
    | next t => exact ih t (by rw [step_input hs, List.length_tail]; omega)
    | fault f => rfl
    | refused r => rfl

/-- A run in two parts. -/
theorem runSteps_add (m n : Nat) (s : State) :
    runSteps (m + n) s = Claims.andThen (runSteps m s) (runSteps n) := by
  induction m generalizing s with
  | zero => rw [Nat.zero_add]; rfl
  | succ m ih =>
    rw [Nat.succ_add, runSteps, runSteps]
    cases step s with
    | next t => exact ih t
    | fault f => rfl
    | refused r => rfl

theorem andThen_mapNext (g : State → State) (o : Host.Outcome State Fault Refusal)
    (f : State → Host.Outcome State Fault Refusal) :
    Claims.andThen (Claims.mapNext g o) f = Claims.andThen o fun t => f (g t) := by
  cases o <;> rfl

/-- Settles O11: while the block takes `a`, the bytes of `b` are events that come later. -/
theorem deliveryInPieces : Obligations.DeliveryInPieces := by
  intro s a b _
  have hsplit : hostDoes (bytesIn (a ++ b)) s = withPort [] (bytesIn b) (hostDoes (bytesIn a) s) := by
    simp [hostDoes, withPort, bytesIn_append]
  have hlen : a.length ≤ (hostDoes (bytesIn a) s).input.length := by simp [bytesIn]
  rw [hsplit, runSteps_add, runSteps_withPort _ _ _ _ hlen, andThen_mapNext]
  rfl

end Sys2Proof.Machine
end

section
/-! The obligations of 40_hash.md: the seed, the tail step, the digests and the `HASH` command. -/

namespace Sys2Proof.Machine

/-! ### The seed -/

/-- The seed reaches a digest only through its extension (R51). -/
theorem murmur128_congr_extendSeed {ext ext' : SeedExt} {seed seed' : Word32}
    (h : extendSeed ext seed = extendSeed ext' seed') (msg : List Byte) :
    murmur128 ext msg seed = murmur128 ext' msg seed' := by
  simp only [murmur128, murmurRegs, initRegs, h]

theorem extendSeed_of_msb_false (ext : SeedExt) {seed : Word32} (h : seed.msb = false) :
    extendSeed ext seed = seed.setWidth 64 := by
  cases ext with
  | zero => rfl
  | sign => exact BitVec.signExtend_eq_setWidth_of_msb_false h

theorem murmur128_of_msb_false (ext : SeedExt) (msg : List Byte) {seed : Word32} (h : seed.msb = false) :
    murmur128 ext msg seed = murmur128 .zero msg seed :=
  murmur128_congr_extendSeed (extendSeed_of_msb_false ext h) msg

theorem msb_ofNat_of_lt {n : Nat} (h : n < 2 ^ 31) : (BitVec.ofNat 32 n).msb = false := by
  rw [BitVec.msb_eq_false_iff_two_mul_lt, BitVec.toNat_ofNat]
  omega

theorem extendSeed_ofNat (ext : SeedExt) {n : Nat} (h : n < 2 ^ 31) :
    extendSeed ext (BitVec.ofNat 32 n) = BitVec.ofNat 64 n := by
  rw [extendSeed_of_msb_false ext (msb_ofNat_of_lt h), BitVec.setWidth_ofNat_of_le_of_lt (by decide) (by omega)]

/-- Settles O33: both extensions widen a nonnegative seed alike, and the seed of a probe is its number, below `2^16`
(R72). -/
theorem seedExtensionOnlyAboveBit31 : Obligations.SeedExtensionOnlyAboveBit31 := by
  refine ⟨fun msg seed h => (murmur128_of_msb_false .sign msg h).symm, fun msg hc i hi => ?_⟩
  have hlt : i < 2 ^ 31 := by
    have := hc.isLt
    omega
  exact (murmur128_of_msb_false .sign msg (msb_ofNat_of_lt hlt)).symm

/-! ### The tail step -/

/-- Bit by bit: the first byte fills the low eight bits and nothing carries out of them. -/
theorem le64_cons (x : Byte) (b : List Byte) : le64 (x :: b) = xor64 (x.setWidth 64) (shl64 (le64 b) 8) := by
  apply BitVec.eq_of_getLsbD_eq
  intro i hi
  have hx : x.toNat < 2 ^ 8 := x.isLt
  rw [xor64, shl64, BitVec.getLsbD_xor, BitVec.getLsbD_setWidth, BitVec.getLsbD_shiftLeft, le64, le64, leNat,
    BitVec.getLsbD_ofNat, BitVec.getLsbD_ofNat, Nat.add_comm, show 256 = 2 ^ 8 from rfl,
    Nat.testBit_two_pow_mul_add _ hx]
  by_cases h : i < 8
  · simp [h, hi, BitVec.testBit_toNat]
  · have hi' : i - 8 < 64 := by omega
    simp [h, hi, hi', BitVec.getLsbD_of_ge x i (by omega)]

/-- What one more byte at the end adds to a little-endian word (R53). -/
theorem le64_concat (b : List Byte) (x : Byte) :
    le64 (b ++ [x]) = xor64 (le64 b) (shl64 (x.setWidth 64) (8 * b.length)) := by
  induction b with
  | nil => simp [xor64, shl64, le64, leNat]
  | cons y b ih =>
    rw [List.cons_append, le64_cons, ih, le64_cons]
    simp only [xor64, shl64, BitVec.shiftLeft_xor_distrib, ← BitVec.shiftLeft_add, List.length_cons, BitVec.xor_assoc,
      Nat.mul_add, Nat.mul_one]

/-- The loop of the tail step gathers the first eight of its bytes in `K1` and the others in `K2` (R53). -/
theorem tailLoop_eq (tail : List Byte) (i : Nat) (r : HashRegs) (hi : i ≤ tail.length) :
    tailLoop tail i r = { r with
      k1 := xor64 (le64 ((tail.take i).take 8)) r.k1, k2 := xor64 (le64 ((tail.take i).drop 8)) r.k2 } := by
  induction i generalizing r with
  | zero => simp [tailLoop, le64, leNat, xor64]
  | succ i ih =>
    have hlen : (tail.take i).length = i := List.length_take_of_le (by omega)
    rw [tailLoop, ih _ (by omega), List.take_succ_eq_append_getElem hi, List.getD_eq_getElem _ _ hi]
    by_cases h8 : i ≥ 8
    · rw [List.take_append_of_le_length (by omega), List.drop_append_of_le_length (by omega), le64_concat]
      simp [tailByte, h8, hlen, xor64, BitVec.xor_assoc, BitVec.xor_comm r.k2]
    · have hall : (tail.take i ++ [tail[i]]).length ≤ 8 := by simp; omega
      rw [List.take_of_length_le hall, List.drop_of_length_le hall,
        List.take_of_length_le (by omega), List.drop_of_length_le (by omega), le64_concat]
      simp [tailByte, h8, hlen, xor64, BitVec.xor_assoc, BitVec.xor_comm r.k1]

/-- Settles O34: the loop starts from `K1` and `K2` zero, and each mixing touches one of `H1` and `H2`. -/
theorem tailStepClosedForm : Obligations.TailStepClosedForm := by
  intro tail r _
  rw [tailStep, tailLoop_eq _ _ _ le_rfl, List.take_length]
  simp only [tailMixK1, tailMixK2, xor64, ge_iff_le]
  split <;> split <;> simp

theorem le64_zeros (n : Nat) : le64 (List.replicate n 0#8) = 0#64 := by
  induction n with
  | zero => rfl
  | succ n ih =>
    rw [List.replicate_succ, le64_cons, ih]
    rfl

/-- A tail of zero bytes leaves `H1` and `H2` alone: zero mixes to zero (R59 (d)). -/
theorem tailStep_zeros {n : Nat} (hn : n ≤ 15) (r : HashRegs) : (tailStep (List.replicate n 0#8) r).Agree r := by
  have hk1 : mixK1 0#64 = 0#64 := by decide
  have hk2 : mixK2 0#64 = 0#64 := by decide
  obtain ⟨h1, h2, hlen⟩ := tailStepClosedForm (List.replicate n 0#8) r (by simpa using hn)
  rw [List.take_replicate, le64_zeros, hk1, xor64, BitVec.xor_zero, ite_self] at h1
  rw [List.drop_replicate, le64_zeros, hk2, xor64, BitVec.xor_zero, ite_self] at h2
  exact ⟨h1, h2, hlen⟩

/-! ### The digests -/

/-- Without a whole message block the block loop does nothing and the message is its own tail (R50). -/
theorem murmur128_of_length_lt (ext : SeedExt) {msg : List Byte} (seed : Word32) (h : msg.length < 16) (r : HashRegs) :
    murmur128 ext msg seed =
      hashOutput (avalancheStep (lengthStep (tailStep msg (initRegs ext seed msg.length r)))) := by
  rw [← hashOutput_murmurRegs ext msg seed r, murmurRegs, Nat.div_eq_of_lt h]
  rfl

/-- After the tail the digest depends on `H1 xor LEN` and `H2 xor LEN` alone (R54 to R56). -/
theorem hashOutput_congr_xor_len {r r' : HashRegs} (h1 : xor64 r.h1 r.len = xor64 r'.h1 r'.len)
    (h2 : xor64 r.h2 r.len = xor64 r'.h2 r'.len) :
    hashOutput (avalancheStep (lengthStep r)) = hashOutput (avalancheStep (lengthStep r')) := by
  simp only [hashOutput, avalancheStep, lengthStep, crossAdd, h1, h2]

/-- Zero bytes enter a digest only by their number, as `LEN`. -/
theorem murmur128_zeros (ext : SeedExt) {n : Nat} (hn : n ≤ 15) (seed : Word32) (r : HashRegs) :
    murmur128 ext (List.replicate n 0#8) seed = hashOutput (avalancheStep (lengthStep (initRegs ext seed n r))) := by
  have hl : (List.replicate n 0#8).length = n := List.length_replicate
  obtain ⟨h1, h2, hlen⟩ := tailStep_zeros hn (initRegs ext seed n r)
  rw [murmur128_of_length_lt ext seed (by omega) r, hl]
  exact hashOutput_congr_xor_len (by rw [h1, hlen]) (by rw [h2, hlen])

/-- Settles O35: `n` meets zero in one xor, as `LEN` on the one side and as the seed on the other. -/
theorem zeroBytesCollideAcrossSeeds : Obligations.ZeroBytesCollideAcrossSeeds := by
  refine ⟨fun ext n _ hn => ?_, fun ext => ?_⟩
  · have r : HashRegs := State.reset.hashRegs
    have h0 : extendSeed ext 0 = 0#64 := extendSeed_ofNat ext (n := 0) (by decide)
    have hs : extendSeed ext (BitVec.ofNat 32 n) = BitVec.ofNat 64 n := extendSeed_ofNat ext (by omega)
    have hx : xor64 (extendSeed ext 0) (BitVec.ofNat 64 n) = xor64 (extendSeed ext (BitVec.ofNat 32 n)) 0#64 := by
      rw [h0, hs, xor64, xor64, BitVec.zero_xor, BitVec.xor_zero]
    calc murmur128 ext (List.replicate n 0#8) 0
      _ = hashOutput (avalancheStep (lengthStep (initRegs ext 0 n r))) := murmur128_zeros ext hn 0 r
      _ = hashOutput (avalancheStep (lengthStep (initRegs ext (BitVec.ofNat 32 n) 0 r))) :=
        hashOutput_congr_xor_len hx hx
      _ = murmur128 ext [] (BitVec.ofNat 32 n) := (murmur128_zeros ext (n := 0) (by decide) _ r).symm
  · rw [murmur128_of_msb_false ext [] rfl]
    decide

/-- Settles O32: six closed evaluations of the hash, one `decide` each. -/
theorem knownDigests : Obligations.KnownDigests :=
  ⟨by decide, by decide, by decide, by decide, by decide, by decide⟩

/-! ### The command -/

/-- The digest of R58's example. -/
theorem murmur128_magic (ext : SeedExt) : (murmur128 ext [0x43, 0x43, 0x42, 0x46] 0).toList =
    [0x05, 0x0f, 0x8d, 0x3c, 0xcb, 0x4a, 0xdf, 0xae, 0xd5, 0x1c, 0x9c, 0xca, 0x61, 0x42, 0x47, 0x96] := by
  rw [murmur128_of_msb_false ext _ rfl]
  decide

/-- Settles O31 from what `exec` does with `HASH` (`exec_hash`); the example's seed has one extension. -/
theorem hashCommand : Obligations.HashCommand := by
  refine ⟨fun seed msg s => ⟨_, exec_hash seed msg s, ?_⟩, fun _ => rfl, by decide,
    fun s => ⟨_, exec_hash _ _ s, ?_⟩⟩
  · exact ⟨evalHash_digest s msg seed, rfl, rfl, fun a => rfl⟩
  · exact congrArg (fun d => s.output ++ 0x00#8 :: d) (murmur128_magic s.params.seedExt)

end Sys2Proof.Machine
end

section
/-! The obligations of 41_index.md: `BitAddress`, the integer of a digest and its reduction, the `INDEX` command and
`HASHIDX`. -/

namespace Sys2Proof.Machine

/-! ### The mask -/

/-- A mask is the power of two of its bit (R62). -/
theorem maskOf_eq_twoPow (n : Nat) : maskOf n = BitVec.twoPow 8 (7 - n % 8) := by
  apply BitVec.eq_of_getLsbD_eq
  intro k hk
  have hlt : 7 - n % 8 < 8 := by omega
  rw [maskOf_getLsbD n k hk, BitVec.getLsbD_twoPow, decide_eq_true hlt, Bool.true_and]
  exact decide_eq_decide.mpr eq_comm

/-- The two spellings of R60 of one mask. -/
theorem maskOf_eq_shiftLeft (n : Nat) : maskOf n = 1#8 <<< (7 - n % 8) := by
  rw [maskOf_eq_twoPow, BitVec.twoPow_eq]

theorem maskOf_toNat (n : Nat) : (maskOf n).toNat = 2 ^ (7 - n % 8) := by
  rw [maskOf_eq_twoPow, BitVec.toNat_twoPow_of_lt (by omega)]

theorem maskOf_mem (n : Nat) :
    maskOf n ∈ [0x80#8, 0x40#8, 0x20#8, 0x10#8, 0x08#8, 0x04#8, 0x02#8, 0x01#8] := by
  have hall : ∀ k < 8, 0x80#8 >>> k ∈ [0x80#8, 0x40#8, 0x20#8, 0x10#8, 0x08#8, 0x04#8, 0x02#8, 0x01#8] := by decide
  exact hall (n % 8) (Nat.mod_lt n (by decide))

/-- Which bit of a byte a mask selects (R19, R62). -/
theorem selectsBit_maskOf (byte : Byte) (i : Nat) : selectsBit byte (maskOf i) = byte.getLsbD (7 - i % 8) := by
  have hne : BitVec.twoPow 8 (7 - i % 8) ≠ 0#8 := by
    rw [← maskOf_eq_twoPow, BitVec.toNat_ne, maskOf_toNat]
    exact (Nat.two_pow_pos _).ne'
  rw [selectsBit, maskOf_eq_twoPow, BitVec.and_twoPow]
  cases byte.getLsbD (7 - i % 8) with
  | false => rfl
  | true => exact bne_iff_ne.mpr hne

/-! ### `BitAddress` -/

theorem ne_zero_of_one_le_toNat {bc : Word32} (h : 1 ≤ bc.toNat) : bc ≠ 0 := by
  rintro rfl
  exact absurd h (by decide)

/-- Settles O36: the three outputs in numbers (`Laws/Operands.lean`), the second spelling of the mask, and the bounds
that follow from `bitIndex < bitCount`. -/
theorem bitAddressOutputs : Obligations.BitAddressOutputs := by
  refine ⟨fun d bc h1 hmax => ?_, by decide⟩
  have h0 := ne_zero_of_one_le_toNat h1
  have hlt := bitAddress_bitIndex_lt d h0
  have hbyte := bitAddress_byteIndex_toNat d h0
  have hmask := bitAddress_mask d h0
  exact ⟨bitAddress_bitIndex_toNat d h0, hbyte, hmask, hmask.trans (maskOf_eq_shiftLeft _), hlt, by omega, by omega,
    hmask ▸ maskOf_mem _⟩

/-- Settles O38: a mask selects its bit, and the byte and the mask of an address are those of its `bitIndex`. -/
theorem mostSignificantBitFirst : Obligations.MostSignificantBitFirst := by
  refine ⟨selectsBit_maskOf, maskOf_toNat, fun s d h0 => ?_, by decide, by decide⟩
  rw [bitAddress_mask d h0, selectsBit_maskOf, bitAddress_byteIndex_toNat d h0, bitAddress_bitIndex_toNat d h0,
    filterBit]

/-! ### The integer of a digest -/

/-- Big-endian by index: byte `j` of `n` has weight `256 ^ (n - 1 - j)` (R7). -/
theorem beNat_ofFn {n : Nat} (f : Fin n → Byte) :
    beNat (List.ofFn f) = ∑ j : Fin n, (f j).toNat * 256 ^ (n - 1 - j.val) := by
  induction n with
  | zero => rfl
  | succ n ih =>
    rw [List.ofFn_succ, beNat_cons, List.length_ofFn, ih, Fin.sum_univ_succ]
    congr 1
    refine Finset.sum_congr rfl fun j _ => ?_
    rw [Fin.val_succ, show n + 1 - 1 - (j.val + 1) = n - 1 - j.val by omega]

theorem beNat_digest_eq_sum (d : Digest) :
    beNat d.toList = ∑ j : Fin 16, (d[j]).toNat * 256 ^ (15 - j.val) := by
  have hd : Vector.ofFn (fun j : Fin 16 => d[j]) = d := Vector.ofFn_getElem
  rw [← beNat_ofFn, ← Vector.toList_ofFn, hd]

theorem beNat_digest_lt (d : Digest) : beNat d.toList < 2 ^ 128 := by
  have h := beNat_lt d.toList
  rwa [Vector.length_toList] at h

/-- The output step puts the bytes of `H1` before those of `H2`, each little-endian (R24, R56). -/
theorem beNat_hashOutput (r : HashRegs) :
    beNat (hashOutput r).toList = beNat (bytesLe64 r.h1) * 2 ^ 64 + beNat (bytesLe64 r.h2) := by
  rw [hashOutput, digestOfList_toList_of_length _ (by simp), beNat_append, bytesLe64_length,
    show 256 ^ 8 = 2 ^ 64 from rfl]

/-- The digest of zero bytes addresses bit 0 whatever the filter's size (R61). -/
theorem bitAddress_zeros (bc : Word32) :
    bitAddress (Vector.replicate 16 0#8) bc = { bitIndex := 0, byteIndex := 0, mask := 0x80 } := by
  have hV : beNat (Vector.replicate 16 0#8).toList = 0 := by decide
  simp only [bitAddress, hV, Nat.zero_mod]
  rfl

/-- Settles O37. Zero has remainder 0 whatever the divisor; the corner case of all ones is one closed evaluation. -/
theorem digestIntegerValue : Obligations.DigestIntegerValue :=
  ⟨fun d => ⟨beNat_digest_eq_sum d, beNat_digest_lt d⟩, beNat_hashOutput, fun bc _ _ => bitAddress_zeros bc,
    by decide⟩

/-! ### The reduction digit by digit -/

/-- Reducing after every digit is reducing once at the end (R63). -/
theorem foldl_hornerStep (bc k : Nat) (b : List Byte) :
    b.foldl (hornerStep bc) (k % bc) = b.foldl (fun acc x => acc * 256 + x.toNat) k % bc := by
  induction b generalizing k with
  | nil => rfl
  | cons x b ih =>
    have hstep : hornerStep bc (k % bc) x = (k * 256 + x.toNat) % bc := by
      rw [hornerStep, ← Nat.mod_add_mod, Nat.mod_mul_mod, Nat.mod_add_mod]
    rw [List.foldl_cons, hstep, ih, List.foldl_cons]

theorem foldl_hornerStep_zero (bc : Nat) (b : List Byte) : b.foldl (hornerStep bc) 0 = beNat b % bc := by
  have h := foldl_hornerStep bc 0 b
  rwa [Nat.zero_mod] at h

/-- Settles O39: every intermediate value is a remainder below `2 ^ 31`, so one more digit stays below `2 ^ 39`. -/
theorem hornerEqualsExactReduction : Obligations.HornerEqualsExactReduction := by
  refine ⟨fun d bc _ _ => foldl_hornerStep_zero bc d.toList, fun d bc j x h1 hmax _ => ?_⟩
  have hrem : beNat (d.toList.take j) % bc < bc := Nat.mod_lt _ h1
  have hx := x.isLt
  rw [foldl_hornerStep_zero]
  omega

/-! ### The `INDEX` command -/

/-- Settles O40: `exec_index` on a configured block, `E_NOCFG` on any other, and the digest of R58 as the example. -/
theorem indexCommand : Obligations.IndexCommand := by
  refine ⟨fun d s h => exec_index d s h, fun d s h => ?_, by decide, fun s h => ?_⟩
  · rw [exec_of_unconfigured h (.inl ⟨d, rfl⟩), raiseStatus_of_not_halts s .eNocfg rfl]
    rfl
  · have hb : bitAddress #v[0x05, 0x0f, 0x8d, 0x3c, 0xcb, 0x4a, 0xdf, 0xae, 0xd5, 0x1c, 0x9c, 0xca, 0x61, 0x42, 0x47,
        0x96] 9585 = { bitIndex := 8133, byteIndex := 1016, mask := 0x04 } := by decide
    refine ⟨_, exec_index _ s (by rw [h]; decide), ?_⟩
    rw [h, hb]
    exact ⟨rfl, rfl, rfl⟩

/-! ### `HASHIDX` -/

/-- One command at an idle port: the host gets the response the command appends, and the port is idle again (R34,
R39). -/
theorem hostSend_of_exec {i : Instr} {s t : State} {r : List Byte} (hwf : i.WellFormed) (hs : PortIdle s)
    (hx : exec i s = .next t) (hr : t.output = s.output ++ r) : hostSend i s = some (t, r) ∧ PortIdle t := by
  obtain ⟨hhalt, hpkt, hinput⟩ := hs
  obtain ⟨hpkt', hhalt', hinput', _⟩ := exec_port hx
  have hin : (hostDoes (bytesIn (encode i)) s).input = bytesIn (encode i) ++ [] := by
    rw [hostDoes_input, hinput, List.nil_append, List.append_nil]
  have hback : { hostDoes (bytesIn (encode i)) s with input := [] } = s := hinput ▸ rfl
  have hrun : runSteps (encode i).length (hostDoes (bytesIn (encode i)) s) = .next t := by
    rw [bytesRefineCommands (hostDoes (bytesIn (encode i)) s) i [] hwf hhalt hpkt hin, hback, hx]
  refine ⟨?_, hhalt'.trans hhalt, hpkt'.trans hpkt, hinput'.trans hinput⟩
  simp only [hostSend, hrun, hr, List.drop_left]

/-- `HASHIDX` on an idle block is an evaluation of the hash, answered, and then `INDEX` of its digest (R65). -/
theorem hostHashIdx_eq {seed : Word32} {msg : List Byte} {s t : State} {r : List Byte} (hfit : MessageFits msg)
    (hs : PortIdle s)
    (hx : exec (.index (murmur128 s.params.seedExt msg seed))
      (respondOk (murmur128 s.params.seedExt msg seed).toList (evalHash msg seed s)) = .next t)
    (hr : t.output = s.output ++ statusCode .ok :: (murmur128 s.params.seedExt msg seed).toList ++ r) :
    hostHashIdx seed msg s = some (t, r) := by
  obtain ⟨hhash, hidle⟩ := hostSend_of_exec (i := .hash seed msg) hfit hs (exec_hash seed msg s) rfl
  obtain ⟨hindex, _⟩ := hostSend_of_exec (i := .index _) trivial hidle hx hr
  simp only [hostHashIdx, hhash, okData, if_true, digestOfList_toList, hindex]

/-- Settles O54: the second packet's operand is the digest the first has left in `DIGEST`. -/
theorem hashIdxIsOneProbe : Obligations.HashIdxIsOneProbe := by
  intro seed msg s hfit hs
  by_cases h0 : s.bitCount = 0
  · refine ⟨_, _, hostHashIdx_eq hfit hs (exec_of_unconfigured h0 (.inl ⟨_, rfl⟩)) rfl, rfl,
      evalHash_digest s msg seed, fun h => absurd h0 h, fun _ => rfl⟩
  · refine ⟨_, _, hostHashIdx_eq hfit hs (exec_index _ _ h0) rfl, rfl, evalHash_digest s msg seed,
      fun _ => ⟨?_, rfl⟩, fun h => absurd h h0⟩
    rw [Claims.LastProbe, probeAddr, BitVec.ofNat_toNat, BitVec.setWidth_eq]
    exact ⟨evalHash_digest s msg seed, rfl, rfl, rfl⟩

end Sys2Proof.Machine
end

section
/-! The obligations of 42_filter.md: `INSERT` and `CONTAINS`, what keeps an answer of 1, insertions in any order, and
what an answer depends on. -/

namespace Sys2Proof.Machine

/-! ### Running commands in sequence -/

theorem execAll_cons_of_next {i : Instr} {s t : State} (is : List Instr) (h : exec i s = .next t) :
    execAll (i :: is) s = execAll is t := by
  rw [execAll, h]

/-- What holds at first and every command of a sequence keeps holds at its end. -/
theorem execAll_induction {P : State → Prop} {is : List Instr}
    (hstep : ∀ i ∈ is, ∀ s t, P s → exec i s = .next t → P t) {s t : State} (hs : P s)
    (h : execAll is s = .next t) : P t := by
  induction is generalizing s with
  | nil =>
    cases h
    exact hs
  | cons i is ih =>
    obtain ⟨u, hu⟩ := exec_next i s
    rw [execAll_cons_of_next is hu] at h
    exact ih (fun j hj => hstep j (List.mem_cons_of_mem i hj)) (hstep i List.mem_cons_self s u hs hu) h

/-! ### `INSERT` and `CONTAINS` (R70, R71, R77) -/

/-- A byte no probe falls on is left alone (R70). -/
theorem insertedFrom_of_forall_ne {p : Params} {bc : Word32} {msg : List Byte} {i n a : Nat} (v : Byte)
    (h : ∀ j, j < i + n → (probeAddr p bc msg j).byteIndex.toNat ≠ a) : insertedFrom p bc msg i n a v = v := by
  apply BitVec.eq_of_getLsbD_eq
  intro k _
  rw [Bool.eq_iff_iff, insertedFrom_getLsbD]
  exact or_iff_left fun ⟨j, _, hj, hbyte, _⟩ => h j hj hbyte

theorem memRead_exec_insert {msg : List Byte} {s t : State} (hwf : s.bits.wf) (hc : s.bitCount ≠ 0)
    (h : exec (.insert msg) s = .next t) (a : Nat) :
    memRead a t = insertedFrom s.params s.bitCount msg 0 s.hashCount.toNat a (memRead a s) := by
  rw [exec_insert msg s hc] at h
  cases h
  exact memRead_insertLoop msg _ 0 a s hwf

/-- Settles O41 from what the loop of `INSERT` makes of `BITS` and of the registers. -/
theorem insertCommand : Obligations.InsertCommand := by
  refine ⟨fun msg s hwf hc => ?_, fun msg s hc => ?_⟩
  · have hexec := exec_insert msg s hc
    have hread := memRead_exec_insert hwf hc hexec
    have hlast := insertLoop_holds msg s.hashCount.toNat 0 s
    have hframe := insertLoop_same msg s.hashCount.toNat 0 s
    have hnone (h0 : s.hashCount = 0) : insertLoop msg s.hashCount.toNat 0 s = s := by rw [h0]; rfl
    generalize insertLoop msg s.hashCount.toNat 0 s = u at *
    refine ⟨_, hexec, fun a => (hread a).trans (insertedByte_eq ..).symm, fun a ha => ?_, rfl, ?_, fun h0 => ?_,
      fun h0 => ?_, ?_⟩
    · exact (hread a).trans (insertedFrom_of_forall_ne _ fun j hj => ha j (by omega))
    · rw [hframe]
      rfl
    · rw [hnone h0]
      exact ⟨rfl, rfl, rfl, rfl⟩
    · have hholds := hlast (BitVec.toNat_ne.mp h0)
      rwa [Nat.zero_add] at hholds
    · rw [hframe]
      rfl
  · rw [exec_of_unconfigured hc (.inr (.inl ⟨msg, rfl⟩)), raiseStatus_of_not_halts s .eNocfg rfl]
    rfl

/-- Settles O42 from the two ways the loop of `CONTAINS` ends. -/
theorem containsCommand : Obligations.ContainsCommand := by
  refine ⟨fun msg s hc => ?_, fun msg s hc => ?_⟩
  · have hexec := exec_contains msg s hc
    have hframe := containsLoop_same msg s.hashCount.toNat 0 s
    have hbits := containsLoop_bits msg s.hashCount.toNat 0 s
    have hout := containsLoop_output msg s.hashCount.toNat 0 s
    have hspec := containsLoop_spec msg s.hashCount.toNat 0 s
    generalize containsLoop msg s.hashCount.toNat 0 s = r at *
    refine ⟨_, hexec, ?_, ?_, memRead_congr hbits⟩
    · rcases hspec with ⟨hans, hall, hprobes, hnone, hlast⟩ | ⟨hans, k, _, hk, hunset, hset, hprobes, hlast⟩
      · left
        refine ⟨fun i hi => hall i (Nat.zero_le i) (by omega), hans, ?_, ?_, fun h0 => ?_, fun h0 => ?_⟩
        · show r.state.output ++ _ = _
          rw [hout, hans]
          rfl
        · show BitVec.ofNat 16 r.probes = _
          rw [hprobes, Nat.zero_add, BitVec.ofNat_toNat, BitVec.setWidth_eq]
        · have hstate := hnone (congrArg BitVec.toNat h0)
          rw [hstate]
          exact ⟨rfl, rfl, rfl, rfl⟩
        · have hholds := hlast (BitVec.toNat_ne.mp h0)
          rwa [Nat.zero_add] at hholds
      · right
        refine ⟨k, by omega, hunset, fun j => hset j (Nat.zero_le j), hans, ?_, ?_, hlast⟩
        · show r.state.output ++ _ = _
          rw [hout, hans]
          rfl
        · show (BitVec.ofNat 16 r.probes).toNat = _
          have := s.hashCount.isLt
          rw [hprobes, BitVec.toNat_ofNat, Nat.mod_eq_of_lt (by omega)]
    · obtain ⟨u, answer, probes⟩ := r
      rw [show u = _ from hframe]
      rfl
  · rw [exec_of_unconfigured hc (.inr (.inr (.inl ⟨msg, rfl⟩))), raiseStatus_of_not_halts s .eNocfg rfl]
    rfl

/-- `CONTAINS` answers 1 for an element the filter remembers (R71). -/
theorem contains_of_remembers {s : State} {q : List Byte} (hc : s.bitCount ≠ 0) (h : Remembers s q) :
    ∃ t, exec (.contains q) s = .next t ∧ t.result = true ∧ t.output = s.output ++ [0x00#8, 0x01#8] := by
  obtain ⟨t, hx, ⟨_, hres, hout, _⟩ | ⟨k, hk, hunset, _⟩, _⟩ := containsCommand.1 q s hc
  · exact ⟨t, hx, hres, hout⟩
  · exact absurd (hunset.symm.trans (h k hk)) Bool.false_ne_true

/-- The answer of `CONTAINS` says whether the filter remembers the element (R71). -/
theorem result_contains_iff {s t : State} {q : List Byte} (hc : s.bitCount ≠ 0)
    (h : exec (.contains q) s = .next t) : t.result = true ↔ Remembers s q := by
  obtain ⟨t', hx, hout, _⟩ := containsCommand.1 q s hc
  obtain rfl := Host.Outcome.next.inj (h.symm.trans hx)
  rcases hout with ⟨hrem, hres, _⟩ | ⟨k, hk, hunset, _, hres, _⟩
  · exact iff_of_true hres hrem
  · exact iff_of_false (by simp [hres]) fun hrem => absurd (hunset.symm.trans (hrem k hk)) Bool.false_ne_true

/-- Without a probe `INSERT` changes no byte (R77). -/
theorem exec_insert_of_hashCount_zero (msg : List Byte) {s : State} (hc : s.bitCount ≠ 0) (h0 : s.hashCount = 0) :
    exec (.insert msg) s = .next (respondOk [] (writeProbes 0 s)) := by
  rw [exec_insert msg s hc, h0]
  rfl

/-- Without a probe `CONTAINS` finds no bit unset (R77). -/
theorem exec_contains_of_hashCount_zero (msg : List Byte) {s : State} (hc : s.bitCount ≠ 0) (h0 : s.hashCount = 0) :
    exec (.contains msg) s = .next (respondOk [0x01] (writeProbes 0 (writeResult true s))) := by
  rw [exec_contains msg s hc, h0]
  rfl

/-- Settles O46: with no probe to make both loops are left at once. In the example `RDARR` reads a byte `CONFIG` has
cleared. -/
theorem zeroHashCount : Obligations.ZeroHashCount := by
  refine ⟨fun msg s hc h0 => ⟨exec_insert_of_hashCount_zero msg hc h0, exec_contains_of_hashCount_zero msg hc h0⟩,
    fun p hp => ?_⟩
  have hfits : ¬ configRefused 8 (State.resetWith p) = true := by
    rw [configRefused_iff]
    rintro (h | h | h)
    · exact absurd h (by decide)
    · exact absurd h (by decide)
    · exact Nat.not_lt.mpr hp.1 h
  have h8 : (8 : Word32) ≠ 0 := by decide
  have h0 : (0 : Word32).toNat < arrayBytes 8 := by decide
  rw [execAll_cons_of_next _ (exec_config 0 8 _ hfits),
    execAll_cons_of_next _ (exec_insert_of_hashCount_zero [0x78] h8 rfl),
    execAll_cons_of_next _ (exec_rdarr 0 _ ?_ ?_),
    execAll_cons_of_next _ (exec_contains_of_hashCount_zero [0x79] h8 rfl)]
  · exact ⟨_, rfl, rfl, rfl⟩
  · exact h8
  · exact h0

/-! ### What leaves a filter its bits -/

/-- The same parameters and the same configuration: what fixes where the probes of a message fall (R72). -/
structure SameConfig (s t : State) : Prop where
  params : t.params = s.params
  bitCount : t.bitCount = s.bitCount
  hashCount : t.hashCount = s.hashCount

theorem SameConfig.trans {s t u : State} (h : SameConfig s t) (h' : SameConfig t u) : SameConfig s u :=
  ⟨h'.params.trans h.params, h'.bitCount.trans h.bitCount, h'.hashCount.trans h.hashCount⟩

theorem SameConfig.configured {s t : State} (h : SameConfig s t) (hc : s.bitCount ≠ 0) : t.bitCount ≠ 0 := by
  rwa [h.bitCount]

/-- Within one configuration no bit of `BITS` has gone from 1 to 0 (R75). -/
structure GrowsTo (s t : State) : Prop extends SameConfig s t where
  bits : ∀ a, memRead a s &&& memRead a t = memRead a s

theorem GrowsTo.refl (s : State) : GrowsTo s s := ⟨⟨rfl, rfl, rfl⟩, fun _ => BitVec.and_self⟩

theorem GrowsTo.trans {s t u : State} (h : GrowsTo s t) (h' : GrowsTo t u) : GrowsTo s u where
  toSameConfig := h.toSameConfig.trans h'.toSameConfig
  bits a := by rw [← h.bits a, BitVec.and_assoc, h'.bits a]

/-- What a filter remembers it remembers with more bits. -/
theorem GrowsTo.remembers {s t : State} {e : List Byte} (h : GrowsTo s t) (he : Remembers s e) : Remembers t e := by
  intro k hk
  rw [h.hashCount] at hk
  rw [probeSet, h.params, h.bitCount]
  exact selectsBit_mono (h.bits _) (he k hk)

/-- A command that starts no new filter: no `CONFIG` that succeeds (R80). -/
def StartsNoFilter (s : State) (i : Instr) : Prop := ∀ hc bc, i = .config hc bc → configRefused bc s = true

theorem startsNoFilter_of_leavesOnes {s : State} {i : Instr} (h : Claims.LeavesOnes s.params i) :
    StartsNoFilter s i := by
  rintro hc bc rfl
  rcases h with h | ⟨_, _, hi, h⟩
  · exact absurd h Bool.false_ne_true
  · cases hi
    exact (configRefused_iff bc s).mpr h

theorem ne_wrarr_of_leavesOnes {p : Params} {i : Instr} (h : Claims.LeavesOnes p i) (addr : Word32) (data : Byte) :
    i ≠ .wrarr addr data := by
  rintro rfl
  rcases h with h | ⟨_, _, hi, _⟩
  · exact absurd h Bool.false_ne_true
  · cases hi

theorem startsNoFilter_of_sparesElement {s : State} {e : List Byte} {i : Instr} (h : Claims.SparesElement s e i) :
    StartsNoFilter s i := by
  rintro hc bc rfl
  exact (configRefused_iff bc s).mpr h

theorem exec_sameConfig {i : Instr} {s t : State} (h : exec i s = .next t) (hi : StartsNoFilter s i) :
    SameConfig s t := by
  by_cases hcfg : ∃ hc bc, i = .config hc bc
  · obtain ⟨hc, bc, rfl⟩ := hcfg
    rw [exec_config_refused hc bc s (hi hc bc rfl)] at h
    cases h
    exact ⟨rfl, rfl, rfl⟩
  · push Not at hcfg
    obtain ⟨hb, hh⟩ := exec_config_frame h hcfg
    obtain ⟨_, _, _, hp⟩ := exec_port h
    exact ⟨hp, hb, hh⟩

theorem insert_sameConfig {e : List Byte} {s t : State} (h : exec (.insert e) s = .next t) : SameConfig s t :=
  exec_sameConfig h fun _ _ hi => by cases hi

/-- Or-ing masks into a byte clears none of its bits (R70). -/
theorem and_insertedFrom (p : Params) (bc : Word32) (msg : List Byte) (i n a : Nat) (v : Byte) :
    v &&& insertedFrom p bc msg i n a v = v := by
  apply BitVec.eq_of_getLsbD_eq
  intro k _
  rw [BitVec.getLsbD_and, Bool.and_eq_left_iff_imp, insertedFrom_getLsbD]
  exact .inl

/-- All but a `CONFIG` that succeeds and a `WRARR` only ever set bits of `BITS` (R19, R75). -/
theorem exec_growsTo {i : Instr} {s t : State} (hwf : s.bits.wf) (h : exec i s = .next t) (hi : StartsNoFilter s i)
    (hw : ∀ addr data, i ≠ .wrarr addr data) : GrowsTo s t := by
  refine ⟨exec_sameConfig h hi, fun a => ?_⟩
  cases effect_of_exec h with
  | fail i e he => exact BitVec.and_self
  | hash seed msg => exact BitVec.and_self
  | index d hc => exact BitVec.and_self
  | insert msg hc =>
    rw [memRead_exec_insert hwf hc h]
    exact and_insertedFrom ..
  | contains msg r hc hr =>
    have hbits : r.state.bits = s.bits := hr ▸ containsLoop_bits msg _ 0 s
    exact (congrArg (memRead a s &&& ·) (memRead_congr hbits a)).trans BitVec.and_self
  | config hc bc h0 hlt hfit =>
    rcases (configRefused_iff bc s).mp (hi hc bc rfl) with h | h | h
    · exact absurd h h0
    · exact absurd hlt (Nat.not_lt.mpr h)
    · exact absurd hfit (Nat.not_le.mpr h)
  | rdarr addr hc ha => exact BitVec.and_self
  | wrarr addr data hc ha => exact absurd rfl (hw addr data)
  | rdreg regno r hr => exact BitVec.and_self

/-! ### An answer of 1 stays 1 -/

/-- Settles O45: the commands allowed only let the filter grow, and a growing filter remembers what it remembered. -/
theorem contentIsMonotonic : Obligations.ContentIsMonotonic := by
  intro s t is hinv his h
  obtain ⟨-, hgrow⟩ : t.Inv ∧ GrowsTo s t := by
    refine execAll_induction (P := fun u => u.Inv ∧ GrowsTo s u) ?_ ⟨hinv, .refl s⟩ h
    intro i hi u v ⟨huinv, hu⟩ hx
    have hleaves := his i hi
    rw [← hu.params] at hleaves
    exact ⟨huinv.exec hx, hu.trans (exec_growsTo huinv.bits hx (startsNoFilter_of_leavesOnes hleaves)
      (ne_wrarr_of_leavesOnes hleaves))⟩
  refine ⟨hgrow.bits, fun q u hc hq hres => ?_⟩
  have hrem := hgrow.remembers ((result_contains_iff hc hq).mp hres)
  obtain ⟨v, hv, hv1, _⟩ := contains_of_remembers (hgrow.configured hc) hrem
  exact ⟨v, hv, hv1⟩

/-! ### No false negatives -/

/-- The bit of a probe in the byte it addresses (R62). -/
theorem probeAddr_mask_getLsbD (p : Params) {bc : Word32} (hc : bc ≠ 0) (msg : List Byte) (i : Nat) :
    (probeAddr p bc msg i).mask.getLsbD (7 - (probeAddr p bc msg i).bitIndex.toNat % 8) = true := by
  rw [show (probeAddr p bc msg i).mask = _ from bitAddress_mask _ hc, maskOf_getLsbD _ _ (by omega)]
  exact decide_eq_true rfl

/-- A filter remembers an element after its insertion (R70, R73). -/
theorem remembers_of_insert {s t : State} {e : List Byte} (hwf : s.bits.wf) (hc : s.bitCount ≠ 0)
    (h : exec (.insert e) s = .next t) : Remembers t e := by
  have hsame := insert_sameConfig h
  intro k hk
  rw [hsame.hashCount] at hk
  rw [probeSet, hsame.params, hsame.bitCount, memRead_exec_insert hwf hc h,
    show (probeAddr s.params s.bitCount e k).mask = _ from bitAddress_mask _ hc, selectsBit_maskOf,
    insertedFrom_getLsbD]
  exact .inr ⟨k, Nat.zero_le k, by omega, rfl, probeAddr_mask_getLsbD _ hc e k⟩

theorem sparesElement_congr {s t : State} (h : SameConfig s t) (e : List Byte) (i : Instr) :
    Claims.SparesElement t e i = Claims.SparesElement s e i := by
  unfold Claims.SparesElement
  rw [h.params, h.bitCount, h.hashCount]

/-- A `WRARR` that keeps the bits of an element leaves it remembered (R73). -/
theorem remembers_memWrite {s : State} {e : List Byte} {addr : Word32} {data : Byte} (hwf : s.bits.wf)
    (hs : Claims.SparesElement s e (.wrarr addr data)) (he : Remembers s e) :
    Remembers (memWrite addr.toNat data s) e := by
  intro k hk
  rw [probeSet, memRead_memWrite _ _ _ _ hwf]
  split
  · rename_i haddr
    exact hs k hk (BitVec.eq_of_toNat_eq haddr.symm)
  · exact he k hk

/-- A command that spares an element leaves it remembered (R73). -/
theorem exec_remembers {i : Instr} {s t : State} {e : List Byte} (hwf : s.bits.wf) (h : exec i s = .next t)
    (hs : Claims.SparesElement s e i) (he : Remembers s e) : Remembers t e := by
  by_cases hw : ∃ addr data, i = .wrarr addr data
  · obtain ⟨addr, data, rfl⟩ := hw
    cases effect_of_exec h with
    | fail i e he' => exact he
    | wrarr addr data hc ha => exact remembers_memWrite hwf hs he
  · push Not at hw
    exact (exec_growsTo hwf h (startsNoFilter_of_sparesElement hs) hw).remembers he

/-- Settles O43: an insertion makes the filter remember the element, every sparing command keeps that. -/
theorem noFalseNegatives : Obligations.NoFalseNegatives := by
  intro s t u e is hinv hc hins his h
  have hst := insert_sameConfig hins
  obtain ⟨_, hsu, hrem⟩ : u.Inv ∧ SameConfig s u ∧ Remembers u e := by
    refine execAll_induction (P := fun v => v.Inv ∧ SameConfig s v ∧ Remembers v e) ?_
      ⟨hinv.exec hins, hst, remembers_of_insert hinv.bits hc hins⟩ h
    intro i hi v w ⟨hvinv, hsv, hv⟩ hx
    have hspares := his i hi
    rw [← sparesElement_congr hsv] at hspares
    exact ⟨hvinv.exec hx, hsv.trans (exec_sameConfig hx (startsNoFilter_of_sparesElement hspares)),
      exec_remembers hvinv.bits hx hspares hv⟩
  exact contains_of_remembers (hsu.configured hc) hrem

/-! ### Insertions in any order -/

/-- What inserting the elements of a list in turn makes of the byte `v` at address `a`. -/
def insertedAll (p : Params) (bc : Word32) (n a : Nat) (es : List (List Byte)) (v : Byte) : Byte :=
  es.foldl (fun v e => insertedByte p bc e n a v) v

/-- The bits of a byte after insertions: those set before and those some probe of some element addresses (R74). -/
theorem insertedAll_getLsbD (p : Params) (bc : Word32) (n a k : Nat) (es : List (List Byte)) (v : Byte) :
    (insertedAll p bc n a es v).getLsbD k = true ↔ v.getLsbD k = true ∨ ∃ e ∈ es, ∃ j < n,
      (probeAddr p bc e j).byteIndex.toNat = a ∧ (probeAddr p bc e j).mask.getLsbD k = true := by
  induction es generalizing v with
  | nil => simp [insertedAll]
  | cons e es ih =>
    have hstep : insertedAll p bc n a (e :: es) v = insertedAll p bc n a es (insertedFrom p bc e 0 n a v) := by
      rw [← insertedByte_eq]
      rfl
    rw [hstep, ih, insertedFrom_getLsbD]
    simp only [Nat.zero_le, true_and, Nat.zero_add, List.exists_mem_cons_iff, or_assoc]

/-- Neither order nor repetition of the elements matters (R74). -/
theorem insertedAll_congr (p : Params) (bc : Word32) (n a : Nat) {es es' : List (List Byte)}
    (h : ∀ e, e ∈ es ↔ e ∈ es') (v : Byte) : insertedAll p bc n a es v = insertedAll p bc n a es' v := by
  apply BitVec.eq_of_getLsbD_eq
  intro k _
  rw [Bool.eq_iff_iff, insertedAll_getLsbD, insertedAll_getLsbD]
  simp only [h]

/-- Insertions one after the other: an invariant block of the same configuration, the masks of all probes of all
elements or-ed into `BITS` (R74). -/
theorem execAll_insert {s t : State} {es : List (List Byte)} (hinv : s.Inv) (hc : s.bitCount ≠ 0)
    (h : execAll (es.map .insert) s = .next t) : t.Inv ∧ SameConfig s t ∧
      ∀ a, memRead a t = insertedAll s.params s.bitCount s.hashCount.toNat a es (memRead a s) := by
  induction es generalizing s with
  | nil =>
    cases h
    exact ⟨hinv, ⟨rfl, rfl, rfl⟩, fun _ => rfl⟩
  | cons e es ih =>
    obtain ⟨u, hx⟩ := exec_next (.insert e) s
    have hsu := insert_sameConfig hx
    rw [List.map_cons, execAll_cons_of_next _ hx] at h
    obtain ⟨htinv, hut, hall⟩ := ih (hinv.exec hx) (hsu.configured hc) h
    refine ⟨htinv, hsu.trans hut, fun a => ?_⟩
    rw [hall, memRead_exec_insert hinv.bits hc hx, ← insertedByte_eq, hsu.params, hsu.bitCount, hsu.hashCount]
    rfl

theorem remembers_congr {s t : State} (h : SameConfig s t) (hb : t.bits = s.bits) (q : List Byte) :
    Remembers t q ↔ Remembers s q := by
  simp only [Remembers, h.hashCount, probeSet_congr h.params h.bitCount hb]

/-- Settles O44: equal bytes make equal memories (`Memory.ext_of_read`), and the answer reads no more than `BITS` and
the configuration. -/
theorem insertionOrderIndependence : Obligations.InsertionOrderIndependence := by
  intro s t t' es es' hinv hc hmem h h'
  obtain ⟨htinv, hst, hread⟩ := execAll_insert hinv hc h
  obtain ⟨htinv', hst', hread'⟩ := execAll_insert hinv hc h'
  have hbits : t.bits = t'.bits := Memory.ext_of_read htinv.bits htinv'.bits fun a =>
    (hread a).trans ((insertedAll_congr _ _ _ a hmem _).trans (hread' a).symm)
  have hsame : SameConfig t' t :=
    ⟨hst.params.trans hst'.params.symm, hst.bitCount.trans hst'.bitCount.symm,
      hst.hashCount.trans hst'.hashCount.symm⟩
  refine ⟨hread, hbits, fun q u u' hu hu' => ?_⟩
  rw [Bool.eq_iff_iff, result_contains_iff (hst.configured hc) hu, result_contains_iff (hst'.configured hc) hu']
  exact remembers_congr hsame hbits q

/-! ### What an answer depends on -/

/-- The seed of a probe is nonnegative, so no parameter matters to where the probe falls (R51, R72). -/
theorem probeAddr_congr_params (p p' : Params) (bc : Word32) (msg : List Byte) {i : Nat} (h : i < 2 ^ 31) :
    probeAddr p bc msg i = probeAddr p' bc msg i := by
  have hmsb := msb_ofNat_of_lt h
  rw [probeAddr, probeAddr, murmur128_of_msb_false p.seedExt msg hmsb, murmur128_of_msb_false p'.seedExt msg hmsb]

/-- A probe tests the filter bit of its index (R62, R71). -/
theorem probeSet_eq_filterBit {s : State} (hc : s.bitCount ≠ 0) (msg : List Byte) (i : Nat) :
    probeSet s msg i = filterBit s (probeAddr s.params s.bitCount msg i).bitIndex.toNat := by
  obtain ⟨_, _, hbit, _⟩ := mostSignificantBitFirst
  rw [show (probeAddr s.params s.bitCount msg i).bitIndex.toNat = _ from bitAddress_bitIndex_toNat _ hc]
  exact hbit s _ hc

/-- The loop of `CONTAINS` from two states whose probes fall on the same bits and find the same there. -/
theorem containsLoop_congr {s s' : State} (msg : List Byte) (n i : Nat)
    (hset : ∀ j, j < i + n → probeSet s' msg j = probeSet s msg j)
    (hindex : ∀ j, j < i + n → (probeAddr s'.params s'.bitCount msg j).bitIndex =
      (probeAddr s.params s.bitCount msg j).bitIndex) :
    (containsLoop msg n i s').answer = (containsLoop msg n i s).answer ∧
    (containsLoop msg n i s').probes = (containsLoop msg n i s).probes ∧
    (n ≠ 0 → (containsLoop msg n i s').state.bitIndex = (containsLoop msg n i s).state.bitIndex) := by
  induction n generalizing i s s' with
  | zero => exact ⟨rfl, rfl, fun h => absurd rfl h⟩
  | succ n ih =>
    have hprobe : (probe msg i s').bitIndex = (probe msg i s).bitIndex := by
      rw [probe_bitIndex, probe_bitIndex, hindex i (by omega)]
    simp only [containsLoop, probedBit_probe, hset i (by omega)]
    split
    · obtain ⟨hans, hprobes, hlast⟩ := ih (s := probe msg i s) (s' := probe msg i s') (i + 1)
        (fun j hj => hset j (by omega)) (fun j hj => hindex j (by omega))
      refine ⟨hans, hprobes, fun _ => ?_⟩
      cases n with
      | zero => exact hprobe
      | succ n => exact hlast (Nat.succ_ne_zero n)
    · exact ⟨rfl, rfl, fun _ => hprobe⟩

/-- Settles O48: the probes of both blocks fall on the same filter bits, all below `BITCOUNT`. -/
theorem containsReadsOnlyFilterBits : Obligations.ContainsReadsOnlyFilterBits := by
  intro s s' t t' msg _ _ hc hb hh hbits hx hx'
  have hc' : s'.bitCount ≠ 0 := hb ▸ hc
  have hlt := s.hashCount.isLt
  have haddr (j : Nat) (hj : j < 0 + s.hashCount.toNat) :
      probeAddr s'.params s'.bitCount msg j = probeAddr s.params s.bitCount msg j := by
    rw [hb]
    exact probeAddr_congr_params _ _ _ msg (by omega)
  have hset (j : Nat) (hj : j < 0 + s.hashCount.toNat) : probeSet s' msg j = probeSet s msg j := by
    rw [probeSet_eq_filterBit hc, probeSet_eq_filterBit hc', haddr j hj]
    exact hbits _ (bitAddress_bitIndex_lt _ hc)
  obtain ⟨hans, hprobes, hlast⟩ :=
    containsLoop_congr msg s.hashCount.toNat 0 hset fun j hj => congrArg BitAddr.bitIndex (haddr j hj)
  rw [exec_contains msg s hc] at hx
  rw [exec_contains msg s' hc', hh] at hx'
  cases hx
  cases hx'
  refine ⟨hans, congrArg (BitVec.ofNat 16) hprobes, ?_⟩
  by_cases h0 : s.hashCount = 0
  · rw [if_pos h0, h0]
    rfl
  · rw [if_neg h0]
    exact hlast (BitVec.toNat_ne.mp h0)

end Sys2Proof.Machine
end

section
/-! The obligations of 43_config_array.md: the failures of every command in one lemma, then `CONFIG`, `RDARR`, `WRARR`
and `RDREG`, and which commands need a filter. -/

namespace Sys2Proof.Machine

/-! ### Failure and success by the table of failures (R100, R105) -/

theorem exec_rdarr_of_nbytes_le {addr : Word32} {s : State} (h : s.bitCount ≠ 0) (h' : nbytes s ≤ addr.toNat) :
    exec (.rdarr addr) s = .next (raiseStatus .eAddr s) := by
  simp only [exec, execRdarr, if_neg h, if_pos h']

theorem exec_wrarr_of_nbytes_le {addr : Word32} (data : Byte) {s : State} (h : s.bitCount ≠ 0)
    (h' : nbytes s ≤ addr.toNat) : exec (.wrarr addr data) s = .next (raiseStatus .eAddr s) := by
  simp only [exec, execWrarr, if_neg h, if_pos h']

theorem exec_rdreg_of_reserved {regno : Byte} (s : State) (h : regOf regno = none) :
    exec (.rdreg regno) s = .next (raiseStatus .eReg s) := by
  simp only [exec, execRdreg, h]

/-- A command fails with the status the table gives it. -/
theorem exec_of_failureOf {i : Instr} {s : State} {e : Status} (h : Claims.failureOf i s = some e) :
    exec i s = .next (raiseStatus e s) := by
  cases i with
  | hash seed msg => cases h
  | index d =>
    obtain ⟨h0, he⟩ := Option.ite_none_right_eq_some.mp h
    exact Option.some.inj he ▸ exec_of_unconfigured h0 (.inl ⟨d, rfl⟩)
  | insert msg =>
    obtain ⟨h0, he⟩ := Option.ite_none_right_eq_some.mp h
    exact Option.some.inj he ▸ exec_of_unconfigured h0 (.inr (.inl ⟨msg, rfl⟩))
  | contains msg =>
    obtain ⟨h0, he⟩ := Option.ite_none_right_eq_some.mp h
    exact Option.some.inj he ▸ exec_of_unconfigured h0 (.inr (.inr (.inl ⟨msg, rfl⟩)))
  | config hc bc =>
    obtain ⟨hr, he⟩ := Option.ite_none_right_eq_some.mp h
    exact Option.some.inj he ▸ exec_config_refused hc bc s ((configRefused_iff bc s).mpr hr)
  | rdarr addr =>
    by_cases h0 : s.bitCount = 0
    · exact Option.some.inj ((if_pos h0).symm.trans h) ▸
        exec_of_unconfigured h0 (.inr (.inr (.inr (.inl ⟨addr, rfl⟩))))
    · obtain ⟨ha, he⟩ := Option.ite_none_right_eq_some.mp ((if_neg h0).symm.trans h)
      exact Option.some.inj he ▸ exec_rdarr_of_nbytes_le h0 ha
  | wrarr addr data =>
    by_cases h0 : s.bitCount = 0
    · exact Option.some.inj ((if_pos h0).symm.trans h) ▸
        exec_of_unconfigured h0 (.inr (.inr (.inr (.inr ⟨addr, data, rfl⟩))))
    · obtain ⟨ha, he⟩ := Option.ite_none_right_eq_some.mp ((if_neg h0).symm.trans h)
      exact Option.some.inj he ▸ exec_wrarr_of_nbytes_le data h0 ha
  | rdreg regno =>
    obtain ⟨hr, he⟩ := Option.ite_none_right_eq_some.mp h
    exact Option.some.inj he ▸ exec_rdreg_of_reserved s ((regOf_eq_none_iff regno).mpr hr)

/-- `exec_of_failureOf` with the next state written out: the sticky flag and the status byte alone (R100). -/
theorem exec_failure_frame {i : Instr} {s : State} (e : Status) (hh : haltsBlock e = false)
    (h : Claims.failureOf i s = some e) :
    exec i s = .next { s with errFlags := s.errFlags ||| errFlag e, output := s.output ++ [statusCode e] } := by
  rw [exec_of_failureOf h, raiseStatus_of_not_halts s e hh]

theorem not_of_ite_some_eq_none {p : Prop} [Decidable p] {e : Status} {o : Option Status}
    (h : (if p then some e else o) = none) : ¬ p := by
  intro hp
  cases (if_pos hp).symm.trans h

/-- Where the table gives no failure a command answers the status `00` (R39), after operations that send nothing. -/
theorem exec_of_failureOf_none {i : Instr} {s : State} (h : Claims.failureOf i s = none) :
    ∃ data u, exec i s = .next (respondOk data u) ∧ u.output = s.output := by
  cases i with
  | hash seed msg => exact ⟨_, _, exec_hash seed msg s, rfl⟩
  | index d =>
    have hc : s.bitCount ≠ 0 := not_of_ite_some_eq_none h
    exact ⟨_, _, exec_index d s hc, rfl⟩
  | insert msg =>
    have hc : s.bitCount ≠ 0 := not_of_ite_some_eq_none h
    exact ⟨_, _, exec_insert msg s hc, insertLoop_output msg _ 0 s⟩
  | contains msg =>
    have hc : s.bitCount ≠ 0 := not_of_ite_some_eq_none h
    exact ⟨_, _, exec_contains msg s hc, containsLoop_output msg _ 0 s⟩
  | config hc bc =>
    have hr : ¬ configRefused bc s = true := (configRefused_iff bc s).not.mpr (not_of_ite_some_eq_none h)
    exact ⟨_, _, exec_config hc bc s hr, rfl⟩
  | rdarr addr =>
    have hc : s.bitCount ≠ 0 := not_of_ite_some_eq_none h
    have ha : addr.toNat < nbytes s := Nat.not_le.mp (not_of_ite_some_eq_none ((if_neg hc).symm.trans h))
    exact ⟨_, _, exec_rdarr addr s hc ha, rfl⟩
  | wrarr addr data =>
    have hc : s.bitCount ≠ 0 := not_of_ite_some_eq_none h
    have ha : addr.toNat < nbytes s := Nat.not_le.mp (not_of_ite_some_eq_none ((if_neg hc).symm.trans h))
    exact ⟨_, _, exec_wrarr addr data s hc ha, rfl⟩
  | rdreg regno =>
    cases hr : regOf regno with
    | none => exact absurd ((regOf_eq_none_iff regno).mp hr) (not_of_ite_some_eq_none h)
    | some r => exact ⟨_, _, exec_rdreg regno r s hr, rfl⟩

/-! ### `CONFIG` (R80) -/

/-- What `CONFIG` refuses, in the rule's own words (R80). -/
theorem configRefused_iff_msb (bc : Word32) (s : State) : configRefused bc s = true ↔
    bc.msb = true ∨ bc = 0 ∨ s.params.arrayBytesMax < (bc.toNat + 7) / 8 := by
  simp [configRefused, arrayBytes, or_assoc]

/-- Settles O49: what `configRefused` lets pass is the first clause, what it refuses the second. -/
theorem configCommand : Obligations.ConfigCommand := by
  refine ⟨fun hc bc s hmsb h0 hfit => ?_, fun hc bc s h => ?_, rfl, rfl, rfl, rfl⟩
  · have hr : ¬ configRefused bc s = true := by
      rw [configRefused_iff_msb, hmsb]
      rintro (h | h | h)
      · cases h
      · exact h0 h
      · exact Nat.not_lt.mpr hfit h
    exact ⟨_, exec_config hc bc s hr, memRead_clearArray (writeConfig hc bc s) (arrayBytes bc), rfl⟩
  · have hr := (configRefused_iff bc s).mp ((configRefused_iff_msb bc s).mpr h)
    exact exec_failure_frame .eCfg rfl (if_pos hr)

/-! ### `WRARR` (R82) -/

/-- Settles O51: `exec_wrarr` below `NBYTES`, the table of failures elsewhere. -/
theorem wrarrCommand : Obligations.WrarrCommand := by
  refine ⟨fun addr data s hwf hc ha => ?_, fun addr data s hc ha => ?_, fun addr data s hc => ?_⟩
  · refine ⟨_, exec_wrarr addr data s hc ha, fun a => ?_, rfl⟩
    exact (memRead_memWrite s addr.toNat a data hwf).trans (if_congr eq_comm rfl rfl)
  · exact exec_failure_frame .eAddr rfl ((if_neg hc).trans (if_pos ha))
  · exact exec_failure_frame .eNocfg rfl (if_pos hc)

/-! ### `RDARR` (R81) -/

/-- Settles O50: `exec_rdarr` below `NBYTES`, the table of failures elsewhere. With 16 bits, `NBYTES` is 2. -/
theorem rdarrCommand : Obligations.RdarrCommand := by
  refine ⟨exec_rdarr, fun addr s hc ha => ?_, fun addr s hc => ?_, fun s hbc hbits => ?_⟩
  · exact exec_failure_frame .eAddr rfl ((if_neg hc).trans (if_pos ha))
  · exact exec_failure_frame .eNocfg rfl (if_pos hc)
  · have hc : s.bitCount ≠ 0 := by rw [hbc]; decide
    have hn : nbytes s = 2 := by rw [nbytes, hbc]; rfl
    have hread : memRead 1 s = 0x70#8 := by rw [memRead_eq, hbits]; rfl
    refine ⟨⟨_, exec_rdarr 1 s hc (by rw [hn]; decide), ?_⟩,
      ⟨_, exec_rdarr_of_nbytes_le hc (by rw [hn]; decide), rfl⟩⟩
    exact congrArg (fun v => s.output ++ [0x00#8, v]) hread

/-! ### `RDREG` (R83) -/

theorem statusWord_resetWith (p : Params) : statusWord (State.resetWith p) = 0 := by
  simp [statusWord, cfgd, State.resetWith]

/-- Settles O52: the register numbers are those `regOf` answers. 9585 bits are 1199 bytes, `0x4af`. -/
theorem rdregCommand : Obligations.RdregCommand := by
  refine ⟨fun regno s h7 hlt => ?_, fun regno s h => ?_, fun p => ⟨_, exec_rdreg 0x00 .status _ rfl, ?_⟩,
    fun s hbc => ⟨_, exec_rdreg 0x03 .nbytes s rfl, ?_⟩⟩
  · obtain ⟨r, hr⟩ : ∃ r, regOf regno = some r := by
      rw [← Option.ne_none_iff_exists', Ne, regOf_eq_none_iff, not_or, BitVec.not_le]
      exact ⟨h7, hlt⟩
    exact ⟨r, hr, exec_rdreg regno r s hr⟩
  · exact exec_failure_frame .eReg rfl (if_pos h)
  · show [] ++ statusCode .ok :: bytesBe32 (statusWord (State.resetWith p)) = _
    rw [statusWord_resetWith]
    decide
  · have hn : nbytes s = 1199 := by rw [nbytes, hbc]; rfl
    show s.output ++ statusCode .ok :: bytesBe32 (BitVec.ofNat 32 (nbytes s)) = _
    rw [hn]
    rfl

/-! ### Which commands need a filter (R84) -/

/-- The response `02` alone is the table's `E_NOCFG`. -/
theorem output_eNocfg_iff {i : Instr} {s t : State} (hx : exec i s = .next t) :
    t.output = s.output ++ [0x02#8] ↔ Claims.failureOf i s = some .eNocfg := by
  cases hf : Claims.failureOf i s with
  | none =>
    obtain ⟨data, u, hu, hout⟩ := exec_of_failureOf_none hf
    obtain rfl := Host.Outcome.next.inj (hx.symm.trans hu)
    simp [hout, respondOk, respond, statusCode]
  | some e =>
    obtain rfl := Host.Outcome.next.inj (hx.symm.trans (exec_of_failureOf hf))
    cases e <;> simp [statusCode]

/-- Settles O26: of the rows of the table exactly those of the five commands can hold `E_NOCFG`. -/
theorem whoNeedsAFilter : Obligations.WhoNeedsAFilter := by
  refine ⟨fun s i hi => ⟨fun ⟨t, hx, hout⟩ => ?_, fun h0 => ⟨_, exec_of_unconfigured h0 hi, rfl⟩⟩,
    fun s t i hi hx hout => ?_⟩
  · have hf := (output_eNocfg_iff hx).mp hout
    rcases hi with ⟨d, rfl⟩ | ⟨m, rfl⟩ | ⟨m, rfl⟩ | ⟨a, rfl⟩ | ⟨a, d, rfl⟩ <;>
      simpa [Claims.failureOf] using hf
  · have hf := (output_eNocfg_iff hx).mp hout
    rcases hi with ⟨seed, m, rfl⟩ | ⟨r, rfl⟩ <;> simp [Claims.failureOf] at hf

end Sys2Proof.Machine
end

section
/-! The obligations of 44_host_procedures.md: the stored image and its checks, `SAVE`, `LOAD` and `NEWFILTER`. -/

namespace Sys2Proof.Machine

/-! ### The image (R93) and the checks of `LOAD` (R95) -/

/-- A short stream or a wrong magic is the first thing refused (R95). -/
theorem checkImage_of_bad_magic {img : List Byte} (h : img.length < 12 ∨ imageField img 0 4 ≠ imageMagic) :
    checkImage img = .error .invalidFormat := if_pos h

/-- After the magic comes the version, which its error carries (R95, R98). -/
theorem checkImage_of_bad_version {img : List Byte} (hlen : 12 ≤ img.length)
    (hmagic : imageField img 0 4 = imageMagic) (hver : be16 (imageField img 4 2) ≠ imageVersion) :
    checkImage img = .error (.unsupportedVersion (be16 (imageField img 4 2))) := by
  have hpass : ¬ (img.length < 12 ∨ imageField img 0 4 ≠ imageMagic) :=
    not_or.mpr ⟨Nat.not_lt.mpr hlen, not_ne_iff.mpr hmagic⟩
  exact (if_neg hpass).trans (if_pos hver)

/-- Past the magic and the version only `bitCount` and the length are left to check (R95). -/
theorem checkImage_of_header {img : List Byte} (hlen : 12 ≤ img.length)
    (hhead : img.take 6 = imageMagic ++ bytesBe16 imageVersion) :
    checkImage img =
      if (be32 (imageField img 8 4)).msb ∨ be32 (imageField img 8 4) = 0 then .error .invalidFormat
      else if img.length ≠ 12 + arrayBytes (be32 (imageField img 8 4)) then .error .invalidFormat
      else .ok (Image.mk (be16 (imageField img 6 2)) (be32 (imageField img 8 4)) (img.drop 12)) := by
  have hmagic : imageField img 0 4 = imageMagic := by
    have h := congrArg (List.take 4) hhead
    rwa [List.take_take] at h
  have hver : imageField img 4 2 = bytesBe16 imageVersion := by
    have h := congrArg (List.drop 4) hhead
    rwa [List.drop_take] at h
  have hpass : ¬ (img.length < 12 ∨ imageField img 0 4 ≠ imageMagic) :=
    not_or.mpr ⟨Nat.not_lt.mpr hlen, not_ne_iff.mpr hmagic⟩
  have hpass' : ¬ be16 (imageField img 4 2) ≠ imageVersion := by rw [hver, be16_bytesBe16, not_ne_iff]
  exact (if_neg hpass).trans (if_neg hpass')

theorem checkImage_of_bad_size {img : List Byte} (hlen : 12 ≤ img.length)
    (hhead : img.take 6 = imageMagic ++ bytesBe16 imageVersion)
    (h : (be32 (imageField img 8 4)).msb = true ∨ be32 (imageField img 8 4) = 0 ∨
      img.length ≠ 12 + arrayBytes (be32 (imageField img 8 4))) :
    checkImage img = .error .invalidFormat := by
  rw [checkImage_of_header hlen hhead]
  split
  · rfl
  next hbc => exact if_pos ((or_assoc.mpr h).resolve_left hbc)

/-- A stream that passes every check is read as what it carries (R95). -/
theorem checkImage_of_good {img : List Byte} (hhead : img.take 6 = imageMagic ++ bytesBe16 imageVersion)
    (hmsb : (be32 (imageField img 8 4)).msb = false) (h0 : be32 (imageField img 8 4) ≠ 0)
    (hlen : img.length = 12 + arrayBytes (be32 (imageField img 8 4))) :
    checkImage img = .ok (Image.mk (be16 (imageField img 6 2)) (be32 (imageField img 8 4)) (img.drop 12)) := by
  have hbc : ¬ ((be32 (imageField img 8 4)).msb = true ∨ be32 (imageField img 8 4) = 0) :=
    not_or.mpr ⟨Bool.eq_false_iff.mp hmsb, h0⟩
  rw [checkImage_of_header (by omega) hhead, if_neg hbc, if_neg (not_ne_iff.mpr hlen)]

theorem imageBytes_length (m : Image) : (imageBytes m).length = 12 + m.array.length := by
  simp only [imageBytes, imageMagic, List.length_append, List.length_cons, List.length_nil, bytesBe16_length,
    bytesBe32_length]

/-- The checks of `LOAD` give back a written image whose array has the size of its `bitCount` (R93, R95). -/
theorem checkImage_imageBytes {m : Image} (hmsb : m.bitCount.msb = false) (h0 : m.bitCount ≠ 0)
    (hlen : m.array.length = arrayBytes m.bitCount) : checkImage (imageBytes m) = .ok m := by
  have hhc : be16 (imageField (imageBytes m) 6 2) = m.hashCount := be16_bytesBe16 m.hashCount
  have hbc : be32 (imageField (imageBytes m) 8 4) = m.bitCount := be32_bytesBe32 m.bitCount
  rw [checkImage_of_good rfl (by rwa [hbc]) (by rwa [hbc]) (by rw [hbc, imageBytes_length, hlen]), hhc, hbc]
  rfl

/-- Settles O55: the header is written field by field, and the checks read the same fields back. -/
theorem imageLayout : Obligations.ImageLayout :=
  ⟨fun m => ⟨rfl, rfl, rfl, imageBytes_length m⟩, fun _ => checkImage_imageBytes, by decide⟩

/-! ### `SAVE` (R94) -/

/-- An address below `NBYTES` survives the address operand of a packet. -/
theorem toNat_ofNat_of_lt_nbytes {a : Nat} {s : State} (ha : a < nbytes s) : (BitVec.ofNat 32 a).toNat = a := by
  have := s.bitCount.isLt
  rw [nbytes, arrayBytes] at ha
  rw [BitVec.toNat_ofNat, Nat.mod_eq_of_lt (by omega)]

/-- One register read at an idle port: its value, and a response added (R83, R94). -/
theorem hostReadReg_eq {regno : Byte} {r : Reg} {s : State} (hr : regOf regno = some r) (hs : PortIdle s) :
    hostReadReg regno s = some (respondOk (bytesBe32 (regValue r s)) s, regValue r s) := by
  obtain ⟨hsend, _⟩ := hostSend_of_exec (i := .rdreg regno) trivial hs (exec_rdreg regno r s hr) rfl
  simp only [hostReadReg, hsend, okData, if_true, Option.map_some, be32_bytesBe32]

/-- Addresses below `NBYTES` read in turn: the bytes there, and only responses added (R81, R94). -/
theorem hostReadArray_spec {n a : Nat} {s : State} (hs : PortIdle s) (hc : s.bitCount ≠ 0) (ha : a + n ≤ nbytes s) :
    ∃ t, hostReadArray n a s = some (t, (List.range' a n).map (fun k => memRead k s)) ∧
      t = { s with output := t.output } := by
  induction n generalizing a s with
  | zero => exact ⟨s, rfl, rfl⟩
  | succ n ih =>
    have haddr := toNat_ofNat_of_lt_nbytes (show a < nbytes s by omega)
    have hx := exec_rdarr (BitVec.ofNat 32 a) s hc (by omega)
    rw [haddr] at hx
    obtain ⟨hsend, hidle⟩ := hostSend_of_exec (i := .rdarr _) trivial hs hx rfl
    obtain ⟨t, hrest, hframe⟩ := ih hidle hc (show a + 1 + n ≤ nbytes s by omega)
    refine ⟨t, ?_, hframe⟩
    simp only [hostReadArray, hsend, okData, if_true, hrest]
    rfl

/-- A block after the two registers `SAVE` reads first (R94). -/
def configRead (s : State) : State :=
  respondOk (bytesBe32 s.bitCount) (respondOk (bytesBe32 (s.hashCount.setWidth 32)) s)

/-- `SAVE` once it has the configuration (R94). -/
theorem hostSave_eq {s : State} (hs : PortIdle s) :
    hostSave s = if s.bitCount = 0 then some (configRead s, none)
      else (hostReadArray (arrayBytes s.bitCount) 0 (configRead s)).map
        (fun r => (r.1, some (imageBytes (Image.mk s.hashCount s.bitCount r.2)))) := by
  have hhash : hostReadReg 0x02 s = some (_, s.hashCount.setWidth 32) := hostReadReg_eq (r := .hashcount) rfl hs
  have hbit : hostReadReg 0x01 (respondOk (bytesBe32 (s.hashCount.setWidth 32)) s) = some (configRead s, s.bitCount) :=
    hostReadReg_eq (r := .bitcount) rfl hs
  have hwidth : (s.hashCount.setWidth 32).setWidth 16 = s.hashCount := by simp
  simp only [hostSave, hhash, regValue, hbit, hwidth]
  split
  · rfl
  · cases hostReadArray (arrayBytes s.bitCount) 0 (configRead s) <;> rfl

/-- The image of a block's filter: the configuration and the bytes below `NBYTES` (R94). -/
def savedImage (s : State) : Image :=
  Image.mk s.hashCount s.bitCount ((List.range (arrayBytes s.bitCount)).map (fun a => memRead a s))

/-- `SAVE` writes the image of a configured block and only adds responses (R94). -/
theorem hostSave_of_configured {s : State} (hs : PortIdle s) (hc : s.bitCount ≠ 0) :
    ∃ t, hostSave s = some (t, some (imageBytes (savedImage s))) ∧ t = { s with output := t.output } := by
  obtain ⟨t, harray, hframe⟩ := hostReadArray_spec (s := configRead s) (n := arrayBytes s.bitCount) hs hc
    (Nat.zero_add _).le
  refine ⟨t, ?_, hframe⟩
  rw [hostSave_eq hs, if_neg hc, harray, ← List.range_eq_range']
  rfl

/-- Settles O56: every packet `SAVE` sends only adds a response. -/
theorem saveWritesTheFilter : Obligations.SaveWritesTheFilter :=
  ⟨fun _ _ hs hc => hostSave_of_configured hs hc,
    fun s hs hc => ⟨configRead s, (hostSave_eq hs).trans (if_pos hc), rfl⟩⟩

/-! ### `CONFIG` as the host sends it (R92, R95) -/

/-- An accepted `CONFIG` answers `00`, which the host reports as success (R80, R92). -/
theorem hostConfig_of_accepted {hc : Word16} {bc : Word32} (e : HostError) {s : State} (hs : PortIdle s)
    (h : ¬ configRefused bc s = true) :
    hostConfig hc bc e s = some (respondOk [] (clearArray (arrayBytes bc) (writeConfig hc bc s)), .ok ()) := by
  obtain ⟨hsend, _⟩ := hostSend_of_exec (i := .config hc bc) trivial hs (exec_config hc bc s h) rfl
  simp only [hostConfig, hsend, if_true]

/-- A refused `CONFIG` leaves `F_CFG` and its response, and the host reports the given kind (R92, R95, R100). -/
theorem hostConfig_of_refused {hc : Word16} {bc : Word32} (e : HostError) {s : State} (hs : PortIdle s)
    (h : configRefused bc s = true) :
    hostConfig hc bc e s =
      some ({ s with errFlags := s.errFlags ||| 0x04#8, output := s.output ++ [0x03#8] }, .error e) := by
  have hx := exec_config_refused hc bc s h
  rw [raiseStatus_of_not_halts s .eCfg rfl] at hx
  obtain ⟨hsend, _⟩ := hostSend_of_exec (i := .config hc bc) trivial hs hx rfl
  simp only [hostConfig, hsend]
  rfl

/-! ### `LOAD` (R95, R96) -/

/-- An image the checks refuse is refused before the first packet (R95). -/
theorem hostLoad_of_error {img : List Byte} {e : HostError} (s : State) (h : checkImage img = .error e) :
    hostLoad img s = some (s, .error e) := by
  simp only [hostLoad, h]

/-- Settles O57: the checks of an image in their order, and then the one `CONFIG` the block can refuse. -/
theorem loadRefusesBadImages : Obligations.LoadRefusesBadImages := by
  refine ⟨fun img s h => ?_, fun img s hlen hmagic hver => ?_, fun img s hlen hhead h => ?_,
    fun img s hhead hmsb h0 hlen hfit hs => ?_⟩
  · exact hostLoad_of_error s (checkImage_of_bad_magic h)
  · exact hostLoad_of_error s (checkImage_of_bad_version hlen hmagic hver)
  · exact hostLoad_of_error s (checkImage_of_bad_size hlen hhead h)
  · have hr : configRefused (be32 (imageField img 8 4)) s = true :=
      (configRefused_iff_msb _ s).mpr (.inr (.inr hfit))
    simp only [hostLoad, checkImage_of_good hhead hmsb h0 hlen, hostConfig_of_refused _ hs hr]

/-- A list of bytes has been written from address `a` on: they stand there in order, the bytes before them, every
register and every flag are as before, and the invariant holds (R82, R95). -/
structure ArrayWritten (array : List Byte) (a : Nat) (s t : State) : Prop where
  inv : t.Inv
  frame : t = { s with bits := t.bits, output := t.output }
  below : ∀ k, k < a → memRead k t = memRead k s
  written : ∀ (i : Nat) (hi : i < array.length), memRead (a + i) t = array[i]

/-- Bytes that fit below `NBYTES`, written in turn by the host (R82, R95). -/
theorem hostWriteArray_spec {array : List Byte} {a : Nat} {s : State} (hinv : s.Inv) (hs : PortIdle s)
    (hc : s.bitCount ≠ 0) (ha : a + array.length ≤ nbytes s) :
    ∃ t, hostWriteArray array a s = some t ∧ ArrayWritten array a s t := by
  induction array generalizing a s with
  | nil => exact ⟨s, rfl, hinv, rfl, fun _ _ => rfl, fun i hi => absurd hi (Nat.not_lt_zero i)⟩
  | cons x array ih =>
    rw [List.length_cons] at ha
    have haddr := toNat_ofNat_of_lt_nbytes (show a < nbytes s by omega)
    have hx := exec_wrarr (BitVec.ofNat 32 a) x s hc (by omega)
    rw [haddr] at hx
    obtain ⟨hsend, hidle⟩ := hostSend_of_exec (i := .wrarr _ x) trivial hs hx rfl
    obtain ⟨t, ht, hinv', hframe, hbelow, hwritten⟩ :=
      ih (hinv.exec hx) hidle hc (show a + 1 + _ ≤ nbytes s by omega)
    have hread (k : Nat) (hk : k < a + 1) : memRead k t = if a = k then x else memRead k s :=
      (hbelow k hk).trans (memRead_memWrite s a k x hinv.bits)
    refine ⟨t, ?_, hinv', hframe, fun k hk => ?_, fun i hi => ?_⟩
    · simp only [hostWriteArray, hsend, okData, if_true, ht]
    · rw [hread k (by omega), if_neg (by omega)]
    · cases i with
      | zero => exact (hread a (by omega)).trans (if_pos rfl)
      | succ i =>
        rw [← Nat.add_assoc, Nat.add_right_comm]
        exact hwritten i (by simpa using hi)

/-- An image that passes the checks and fits an idle block: `CONFIG` and the writes of the array are all that happens to
the block (R95, R96). -/
theorem hostLoad_of_fits {img : List Byte} {m : Image} {s : State} (hcheck : checkImage img = .ok m)
    (hmsb : m.bitCount.msb = false) (h0 : m.bitCount ≠ 0) (hlen : m.array.length = arrayBytes m.bitCount)
    (hfit : arrayBytes m.bitCount ≤ s.params.arrayBytesMax) (hinv : s.Inv) (hs : PortIdle s) :
    ∃ t, hostLoad img s = some (t, .ok ()) ∧ ArrayWritten m.array 0 (writeConfig m.hashCount m.bitCount s) t := by
  have hr : ¬ configRefused m.bitCount s = true := by
    rw [configRefused_iff_msb, hmsb]
    exact not_or.mpr ⟨Bool.false_ne_true, not_or.mpr ⟨h0, Nat.not_lt.mpr hfit⟩⟩
  have hx := exec_config m.hashCount m.bitCount s hr
  obtain ⟨_, hidle⟩ := hostSend_of_exec (i := .config _ _) trivial hs hx rfl
  obtain ⟨t, hwrite, hwritten⟩ := hostWriteArray_spec (hinv.exec hx) hidle h0 ((Nat.zero_add _).trans hlen).le
  refine ⟨t, ?_, ?_⟩
  · simp only [hostLoad, hcheck, hostConfig_of_accepted _ hs hr, hwrite, Option.map_some]
  · exact ⟨hwritten.inv, hwritten.frame, fun k hk => absurd hk k.not_lt_zero, hwritten.written⟩

/-- Settles O58: what `LOAD` writes is the array `SAVE` has read, and `CONTAINS` reads no more than the filter bits
(O48). -/
theorem saveLoadRoundTrip : Obligations.SaveLoadRoundTrip := by
  intro s u hinv hs hc huinv hus hfit
  obtain ⟨hmsb, _⟩ := hinv.bitCount.resolve_left hc
  have hlen : (savedImage s).array.length = arrayBytes s.bitCount := by simp [savedImage]
  obtain ⟨t, hsave, _⟩ := hostSave_of_configured hs hc
  have hcheck := checkImage_imageBytes (m := savedImage s) hmsb hc hlen
  obtain ⟨v, hload, hvinv, hframe, _, hwritten⟩ := hostLoad_of_fits hcheck hmsb hc hlen hfit huinv hus
  have hread (a : Nat) (ha : a < arrayBytes s.bitCount) : memRead a v = memRead a s := by
    have h := hwritten a (by rwa [hlen])
    rw [Nat.zero_add] at h
    rw [h]
    simp [savedImage]
  have hhash : v.hashCount = s.hashCount := by rw [hframe]; rfl
  have hbit : v.bitCount = s.bitCount := by rw [hframe]; rfl
  have hanswer (q : List Byte) (x y : State) (hx : exec (.contains q) s = .next x)
      (hy : exec (.contains q) v = .next y) : y.result = x.result := by
    refine (containsReadsOnlyFilterBits s v x y q hinv hvinv hc hbit hhash (fun i hi => ?_) hx hy).1
    rw [filterBit, filterBit, hread (i / 8) (by rw [arrayBytes]; omega)]
  refine ⟨t, _, v, hsave, hload, hhash, hbit, hread, hanswer, ?_⟩
  rw [hframe]
  exact ⟨rfl, rfl, rfl, rfl, rfl, rfl, rfl⟩

/-! ### `NEWFILTER` (R90 to R92) -/

/-- A rate outside `(0, 1)` is refused before any packet (R90). -/
theorem hostNewFilter_of_bad_epsilon (ar : HostArith) (n : Int) {ε : Rat} (s : State) (h : ε ≤ 0 ∨ 1 ≤ ε) :
    hostNewFilter ar n ε s = some (s, .error .invalidParameter) :=
  if_pos fun ⟨h0, h1⟩ => h.elim (not_le.mpr h0) (not_le.mpr h1)

/-- So are sizes no filter can have, whatever the rate (log 15). -/
theorem hostNewFilter_of_unbuildable (ar : HostArith) (n : Int) (ε : Rat) (s : State)
    (h : UnbuildableSizes (sizedBitCount ar n ε) (sizedHashCount ar ε)) :
    hostNewFilter ar n ε s = some (s, .error .invalidParameter) := by
  rw [hostNewFilter, if_pos h, ite_self]

theorem toNat_ofNat_bitCount {bc : Nat} (h : bc ≤ 2 ^ 31 - 1) : (BitVec.ofNat 32 bc).toNat = bc := by
  rw [BitVec.toNat_ofNat, Nat.mod_eq_of_lt (by omega)]

/-- A `bitCount` of R14 is refused exactly for its size (R80). -/
theorem configRefused_ofNat_iff {bc : Nat} (s : State) (h1 : 1 ≤ bc) (h2 : bc ≤ 2 ^ 31 - 1) :
    configRefused (BitVec.ofNat 32 bc) s = true ↔ s.params.arrayBytesMax < (bc + 7) / 8 := by
  have hn := toNat_ofNat_bitCount h2
  have h0 : BitVec.ofNat 32 bc ≠ 0 := ne_zero_of_one_le_toNat (by rwa [hn])
  rw [configRefused_iff, hn]
  refine ⟨?_, fun h => .inr (.inr h)⟩
  rintro (h | h | h)
  · exact absurd h h0
  · omega
  · exact h

/-- The `CONFIG` of `NEWFILTER` on an idle block with room: configured so, and empty (R80, R92). -/
theorem hostConfig_of_room {bc : Nat} (hc : Word16) (e : HostError) {s : State} (hs : PortIdle s) (h1 : 1 ≤ bc)
    (h2 : bc ≤ 2 ^ 31 - 1) (hfit : (bc + 7) / 8 ≤ s.params.arrayBytesMax) :
    ∃ t, hostConfig hc (BitVec.ofNat 32 bc) e s = some (t, .ok ()) ∧ t.hashCount = hc ∧
      t.bitCount = BitVec.ofNat 32 bc ∧ t.output = s.output ++ [0x00#8] ∧
      ∀ a, a < (bc + 7) / 8 → memRead a t = 0x00#8 := by
  have hr := (configRefused_ofNat_iff s h1 h2).not.mpr (Nat.not_lt.mpr hfit)
  refine ⟨_, hostConfig_of_accepted e hs hr, rfl, rfl, rfl, fun a ha => ?_⟩
  refine (memRead_clearArray _ _ a).trans (if_pos ?_)
  rwa [arrayBytes, toNat_ofNat_bitCount h2]

/-- Settles O59: the two checks before any packet, then what `CONFIG` answers. -/
theorem newFilterChecksParameters : Obligations.NewFilterChecksParameters := by
  refine ⟨fun ar n ε s h => hostNewFilter_of_bad_epsilon ar n s h,
    fun ar n ε s h => hostNewFilter_of_unbuildable ar n ε s h, fun ar n ε s bc hc h0 h1 hb hh hb1 hb2 hh2 hs => ?_⟩
  rw [hostNewFilter_eq ar n ε s bc hc h0 h1 hb hh hb1 hb2 hh2]
  refine ⟨fun hfit => ?_, fun hbig => ?_⟩
  · obtain ⟨t, hconfig, hth, htb, _, hread⟩ :=
      hostConfig_of_room (BitVec.ofNat 16 hc) .invalidParameter hs hb1 hb2 hfit
    refine ⟨t, hconfig, ?_, ?_, hread⟩
    · rw [htb, toNat_ofNat_bitCount hb2]
    · rw [hth, BitVec.toNat_ofNat, Nat.mod_eq_of_lt (by omega)]
  · exact hostConfig_of_refused _ hs ((configRefused_ofNat_iff s hb1 hb2).mpr hbig)

/-- Powers of 2 on both sides of powers of `x = 1 / ε` fix the sizes of an arithmetic that is near enough:
`a / b ≤ -(ln ε / ln 2) ≤ c / d` (R91). -/
theorem sized_of_powers {ar : HostArith} {δ : ℝ} {n : Int} {ε : Rat} (bc hc : Int) (x : ℝ) (a b c d : Nat)
    (hw : SizesWithin δ ar n ε) (hx : (ε : ℝ)⁻¹ = x) (hpos : 0 < x) (hn : 0 ≤ n) (hb : 0 < b) (hd : 0 < d)
    (hlow : 2 ^ a ≤ x ^ b) (hhigh : x ^ d ≤ 2 ^ c) (b1 : (bc : ℝ) + δ ≤ n * (a / b) / 0.6931471808)
    (b2 : n * (c / d) / 0.6931471803 + δ < (bc : ℝ) + 1) (c1 : (hc : ℝ) + δ ≤ a / b)
    (c2 : (c / d : ℝ) + δ < hc + 1) :
    sizedBitCount ar n ε = bc ∧ sizedHashCount ar ε = hc := by
  have h1 := mul_log_two_le a b x hb hlow
  have h2 := log_le_mul_log_two c d x hpos hd hhigh
  rw [← hx, Real.log_inv] at h1 h2
  exact sized_of_bounds ar δ (a / b) (c / d) n ε bc hc hw (by exact_mod_cast hn) (by positivity) h1 h2 b1 b2 c1 c2

/-- Row 1 of R91's table: `log2 100` lies between `485 / 73` and `299 / 45`. -/
theorem sized_1000_hundredth {ar : HostArith} (h : SizesWithin (1 / 100) ar 1000 (1 / 100)) :
    sizedBitCount ar 1000 (1 / 100) = 9585 ∧ sizedHashCount ar (1 / 100) = 6 := by
  have hlow : (2 : ℝ) ^ (97 * 5) ≤ 100 ^ 73 := by rw [pow_mul]; norm_num
  have hhigh : (100 : ℝ) ^ 45 ≤ 2 ^ (23 * 13) := by rw [pow_mul]; norm_num
  apply sized_of_powers 9585 6 100 _ _ _ _ h _ _ _ _ _ hlow hhigh <;> norm_num

/-- Row 2: `log2 2` is 1. -/
theorem sized_1000_half {ar : HostArith} (h : SizesWithin 0 ar 1000 (1 / 2)) :
    sizedBitCount ar 1000 (1 / 2) = 1442 ∧ sizedHashCount ar (1 / 2) = 1 := by
  have hpow : (2 : ℝ) ^ 1 ≤ 2 ^ 1 := le_rfl
  apply sized_of_powers 1442 1 2 _ _ _ _ h _ _ _ _ _ hpow hpow <;> norm_num

/-- Row 3: `log2 (5 / 3)` lies between `14 / 19` and `59 / 80`. -/
theorem sized_1000_three_fifths {ar : HostArith} (h : SizesWithin (1 / 100) ar 1000 (3 / 5)) :
    sizedBitCount ar 1000 (3 / 5) = 1063 ∧ sizedHashCount ar (3 / 5) = 0 := by
  have hlow : (2 : ℝ) ^ 14 ≤ (5 / 3) ^ 19 := by norm_num
  have hhigh : (5 / 3 : ℝ) ^ 80 ≤ 2 ^ 59 := by norm_num
  apply sized_of_powers 1063 0 (5 / 3) _ _ _ _ h _ _ _ _ _ hlow hhigh <;> norm_num

/-- Row 5: `log2 1000` lies between `259 / 26` and `299 / 30`. -/
theorem sized_100_thousandth {ar : HostArith} (h : SizesWithin (1 / 100) ar 100 (1 / 1000)) :
    sizedBitCount ar 100 (1 / 1000) = 1437 ∧ sizedHashCount ar (1 / 1000) = 9 := by
  have hlow : (2 : ℝ) ^ (37 * 7) ≤ 1000 ^ 26 := by rw [pow_mul]; norm_num
  have hhigh : (1000 : ℝ) ^ 30 ≤ 2 ^ (23 * 13) := by rw [pow_mul]; norm_num
  apply sized_of_powers 1437 9 1000 _ _ _ _ h _ _ _ _ _ hlow hhigh <;> norm_num

/-- For no elements the exact quotient is 0, and the floor of what is near it is no `bitCount`. -/
theorem sizedBitCount_zero_lt_one {ar : HostArith} {ε : Rat} (h : SizesWithin (1 / 100) ar 0 ε) :
    sizedBitCount ar 0 ε < 1 := by
  obtain ⟨x, _, hx, _, hbc, _⟩ := h
  rw [hbc, Int.floor_lt]
  simp only [Int.cast_zero, zero_mul, neg_zero, zero_div, sub_zero] at hx
  have := (abs_le.mp hx).2
  push_cast
  linarith

/-- The sizes of a row, all in range, are what `NEWFILTER` sends (R91). -/
theorem hostNewFilter_of_sized {ar : HostArith} {n : Int} {ε : Rat} {bc hc : Nat} (s : State)
    (h : sizedBitCount ar n ε = bc ∧ sizedHashCount ar ε = hc) (hε : 0 < ε ∧ ε < 1)
    (hrange : 1 ≤ bc ∧ bc ≤ 2 ^ 31 - 1 ∧ hc ≤ 65535) :
    hostNewFilter ar n ε s = hostConfig (BitVec.ofNat 16 hc) (BitVec.ofNat 32 bc) .invalidParameter s := by
  obtain ⟨hb1, hb2, hh2⟩ := hrange
  exact hostNewFilter_eq ar n ε s bc hc hε.1 hε.2 h.1 h.2 hb1 hb2 hh2

/-- Settles O60: exact arithmetic computes the relation's sizes, and each row's bounds on `log2 (1 / epsilon)` leave one
value for each floor. -/
theorem newFilterFollowsTheFormulas : Obligations.NewFilterFollowsTheFormulas := by
  refine ⟨fun n ε bc hc s h0 h1 hf hb1 hb2 hh2 => ?_, fun ar s => ?_⟩
  · obtain ⟨hbit, hhash⟩ := sizingFormula_realArith n ε
    exact hostNewFilter_of_sized s ⟨hbit.trans hf.1.symm, hhash.trans hf.2.symm⟩ ⟨h0, h1⟩ ⟨hb1, hb2, hh2⟩
  · have hfirst (h : SizesWithin (1 / 100) ar 1000 (1 / 100)) :
        hostNewFilter ar 1000 (1 / 100) s = hostConfig 6 9585 .invalidParameter s :=
      hostNewFilter_of_sized s (sized_1000_hundredth h) (by norm_num) (by decide)
    refine ⟨hfirst, fun h => ?_, fun h => ?_, fun h => ?_, fun h => ?_, fun h hs hfit => ?_⟩
    · exact hostNewFilter_of_sized s (sized_1000_half h) (by norm_num) (by decide)
    · exact hostNewFilter_of_sized s (sized_1000_three_fifths h) (by norm_num) (by decide)
    · exact hostNewFilter_of_unbuildable ar 0 _ s (.inl (sizedBitCount_zero_lt_one h))
    · exact hostNewFilter_of_sized s (sized_100_thousandth h) (by norm_num) (by decide)
    · obtain ⟨t, hconfig, hhash, hbit, hout, hread⟩ :=
        hostConfig_of_room (bc := 9585) 6 .invalidParameter hs (by decide) (by decide) hfit
      refine ⟨t, (hfirst h).trans hconfig, hhash, hbit, ?_, hout, hread⟩
      rw [nbytes, hbit]
      rfl

end Sys2Proof.Machine
end

section
/-! The obligations of 60_exceptions.md: the illegal opcode (R101), the halt it causes and its end (R102, R103), and
failing precisely (R100, R105). -/

namespace Sys2Proof.Machine

/-! ### The illegal opcode (R101) -/

/-- A byte that makes the decoder meet an illegal opcode is that opcode, and no packet is in progress (R101). -/
theorem illegal_between_packets {p rest : List Byte} {b : Byte} (hp : decode p = .incomplete)
    (h : decode (p ++ [b]) = .illegal rest) : p = [] ∧ Claims.IllegalOpcode b := by
  obtain ⟨c, hc, ho⟩ := eq_cons_of_decode_illegal h
  rw [rest_nil_of_illegal hp h] at hc
  cases p with
  | nil =>
    obtain rfl := (List.cons.inj hc).1
    exact ⟨rfl, (opcodeOf_eq_none_iff b).mp ho⟩
  | cons d p => simp at hc

/-- The step that takes an illegal opcode raises `E_ILLEGAL` and does nothing else (R101, R102). -/
theorem step_of_illegal {s : State} {b : Byte} {more : List HostEvent} (hh : s.halt = false) (hp : s.pkt = [])
    (hi : s.input = .byte b :: more) (hb : Claims.IllegalOpcode b) :
    step s = .next { s with input := more, errFlags := s.errFlags ||| 0x01#8, halt := true,
                            output := s.output ++ [0x01#8] } := by
  have hd : decode [b] = .illegal [] := (decode_illegal_iff b []).mpr ((opcodeOf_eq_none_iff b).mpr hb)
  rw [step_byte s b more hi hh]
  simp [acceptByte, hp, hd, raiseStatus, respond, errFlag, statusCode, haltsBlock]

/-- Settles O13: a packet in progress begins with an opcode, and the packet a byte completes is `PKT` and that byte. -/
theorem illegalOpcodeFails : Obligations.IllegalOpcodeFails := by
  refine ⟨fun s b more hh hp hi hb => step_of_illegal hh hp hi hb,
    fun s b hinv hne => ⟨fun rest hd => ?_, fun i rest hd => ?_⟩, fun p => ?_⟩
  · obtain ⟨hp, _⟩ := illegal_between_packets hinv.pkt hd
    exact hne hp
  · obtain rfl := rest_nil_of_packet hinv.pkt hd
    obtain ⟨_, he⟩ := encodeOfDecode _ i [] hd
    rw [List.append_nil] at he
    exact ⟨rfl, by rw [← he, List.head?_append_of_ne_nil _ hne]⟩
  · exact ⟨_, (runSteps_one _).trans (step_of_illegal rfl rfl rfl (.inr (by decide))), rfl⟩

/-! ### The halt (R102, R103) -/

/-- Settles O14: of all a step can do, only failing on an illegal opcode sets `HALT`. -/
theorem haltHasOneCause : Obligations.HaltHasOneCause := by
  intro s t hinv hs hh ht
  rcases step_cases s with ⟨_, hx⟩ | ⟨more, _, hx⟩ | ⟨b, more, _, hhalt, _⟩ | ⟨b, more, _, _, _, hx⟩ |
    ⟨b, more, rest, hi, _, hd, _⟩ | ⟨b, more, i, rest, _, _, _, hx⟩
  · cases hx.symm.trans hs
  · cases hx.symm.trans hs
    cases ht
  · cases hh.symm.trans hhalt
  · cases hx.symm.trans hs
    cases hh.symm.trans ht
  · obtain ⟨hp, hb⟩ := illegal_between_packets hinv.pkt hd
    exact ⟨b, more, hi, hp, hb, Host.Outcome.next.inj (hs.symm.trans (step_of_illegal hh hp hi hb))⟩
  · obtain ⟨_, hhalt, _⟩ := exec_port (hx.symm.trans hs)
    cases hh.symm.trans (hhalt.symm.trans ht)

/-- A halted block takes bytes and does nothing with them (R103). -/
theorem runSteps_halted {s : State} (bytes : List Byte) (more : List HostEvent) (hh : s.halt = true)
    (hi : s.input = bytesIn bytes ++ more) : runSteps bytes.length s = .next { s with input := more } := by
  induction bytes generalizing s with
  | nil =>
    obtain rfl : s.input = more := hi
    rfl
  | cons b bytes ih =>
    rw [List.length_cons, runSteps_succ_of_next _ (step_halted s b _ hi hh)]
    exact ih hh rfl

/-- Settles O15: of all a step of a halted block can do, only reset does more than discard a byte. -/
theorem haltedBlockDiscards : Obligations.HaltedBlockDiscards := by
  refine ⟨fun s bytes more => runSteps_halted bytes more, fun s hh hi => ?_, fun s t hs hh ht => ?_⟩
  · rw [step_nil s hi, waitFault, if_pos hh]
  · cases hi : s.input with
    | nil => cases (step_nil s hi).symm.trans hs
    | cons e more =>
      cases e with
      | reset =>
        cases (step_reset s more hi).symm.trans hs
        exact ⟨rfl, rfl⟩
      | byte b =>
        cases (step_halted s b more hi hh).symm.trans hs
        cases hh.symm.trans ht

/-! ### Failing precisely (R100, R105) -/

/-- The flag of a status is the bit its code names (R16, R100). -/
theorem errFlag_eq_shiftLeft {e : Status} (he : e ≠ .ok) : errFlag e = 1#8 <<< (statusCode e - 1#8) := by
  cases e with
  | ok => exact absurd rfl he
  | _ => decide

/-- The table names only the four status codes of a command (R100). -/
theorem status_of_failureOf {i : Instr} {s : State} {e : Status} (h : Claims.failureOf i s = some e) :
    e = .eNocfg ∨ e = .eCfg ∨ e = .eAddr ∨ e = .eReg := by
  have eq_of_ite {p : Prop} [Decidable p] {c : Status} (h : (if p then some c else none) = some e) : e = c :=
    (Option.ite_some_none_eq_some.mp h).2.symm
  have eNocfg_or_eAddr {p q : Prop} [Decidable p] [Decidable q]
      (h : (if p then some Status.eNocfg else if q then some .eAddr else none) = some e) :
      e = .eNocfg ∨ e = .eAddr := by
    by_cases hp : p
    · exact .inl (Option.some.inj ((if_pos hp).symm.trans h)).symm
    · exact .inr (eq_of_ite ((if_neg hp).symm.trans h))
  cases i with
  | hash seed msg => cases h
  | index d => exact .inl (eq_of_ite h)
  | insert msg => exact .inl (eq_of_ite h)
  | contains msg => exact .inl (eq_of_ite h)
  | config hc bc => exact .inr (.inl (eq_of_ite h))
  | rdarr addr => rcases eNocfg_or_eAddr h with rfl | rfl <;> decide
  | wrarr addr data => rcases eNocfg_or_eAddr h with rfl | rfl <;> decide
  | rdreg regno => exact .inr (.inr (.inr (eq_of_ite h)))

/-- A command that answers the status `00` sets no flag (R100). -/
theorem errFlags_of_ok_response {i : Instr} {s t : State} {data : List Byte} (h : exec i s = .next t)
    (ho : t.output = s.output ++ 0x00#8 :: data) : t.errFlags = s.errFlags := by
  cases effect_of_exec h with
  | fail i e he =>
    have hcode : statusCode e = 0x00#8 := (List.cons.inj (List.append_cancel_left ho)).1
    cases e with
    | ok => exact BitVec.or_zero
    | _ => cases hcode
  | hash seed msg => rfl
  | index d hc => rfl
  | insert msg hc => simp
  | contains msg r hc hr => simp [hr]
  | config hc bc h0 hlt hfit => rfl
  | rdarr addr hc ha => rfl
  | wrarr addr data hc ha => rfl
  | rdreg regno r hr => rfl

/-- Settles O22: `exec_of_failureOf` writes the failing state, `exec_of_failureOf_none` the response of a success. -/
theorem failuresArePrecise : Obligations.FailuresArePrecise := by
  refine ⟨fun i s e h => ?_, fun i s h => ?_⟩
  · obtain ⟨hok, hhalt⟩ : e ≠ .ok ∧ haltsBlock e = false := by
      rcases status_of_failureOf h with rfl | rfl | rfl | rfl <;> decide
    rw [exec_failure_frame e hhalt h, errFlag_eq_shiftLeft hok]
  · obtain ⟨data, u, hx, hout⟩ := exec_of_failureOf_none h
    have ho : (respondOk data u).output = s.output ++ 0x00#8 :: data := congrArg (· ++ _) hout
    obtain ⟨_, hhalt, _, _⟩ := exec_port hx
    exact ⟨_, data, hx, ho, errFlags_of_ok_response hx ho, hhalt⟩

end Sys2Proof.Machine
end

section
/-! The obligations of 70_reset_and_hazards.md: a stream of packets (R117), an incomplete packet (R113), when a step
stops (R113, R116), responses never read (R115), reset (R110). -/

namespace Sys2Proof.Machine

/-! ### Packets sent to an idle port (R28, R113, R117) -/

/-- What the host sends after all it sent was taken is all there is to take. -/
theorem hostDoes_bytesIn_input {s : State} (hin : s.input = []) (b : List Byte) :
    (hostDoes (bytesIn b) s).input = bytesIn b ++ [] := by
  rw [hostDoes_input, hin, List.nil_append, List.append_nil]

/-- The rest `r` of the packet in `PKT`, sent to a port that waits for it, completes its command (R34). -/
theorem runSteps_hostDoes_rest {i : Instr} {s : State} {r : List Byte} (hwf : i.WellFormed) (hh : s.halt = false)
    (hin : s.input = []) (he : encode i = s.pkt ++ r) (hr : r ≠ []) :
    runSteps r.length (hostDoes (bytesIn r) s) = exec i { s with pkt := [] } := by
  have hback : { hostDoes (bytesIn r) s with input := [], pkt := [] } = { s with pkt := [] } := hin ▸ rfl
  rw [runSteps_rest_of_packet hwf [] hr (hostDoes (bytesIn r) s) hh (hostDoes_bytesIn_input hin r) he, hback]

/-- One whole packet sent to an idle port. -/
theorem runSteps_hostDoes_encode {i : Instr} {s : State} (hwf : i.WellFormed) (hs : PortIdle s) :
    runSteps (encode i).length (hostDoes (bytesIn (encode i)) s) = exec i s := by
  obtain ⟨hh, hp, hin⟩ := hs
  have he : encode i = s.pkt ++ encode i := by rw [hp, List.nil_append]
  rw [runSteps_hostDoes_rest hwf hh hin he (encode_ne_nil i), ← hp]

/-- A command leaves an idle port idle (R34). -/
theorem portIdle_of_exec {i : Instr} {s t : State} (hs : PortIdle s) (hx : exec i s = .next t) : PortIdle t := by
  obtain ⟨hh, hp, hin⟩ := hs
  obtain ⟨hp', hh', hin', _⟩ := exec_port hx
  exact ⟨hh'.trans hh, hp'.trans hp, hin'.trans hin⟩

/-- Settles O10, by induction on the commands: the first packet and the others are two pieces of the stream, and the
first leaves the port idle for the others. -/
theorem streamRefinesCommandSequence : Obligations.StreamRefinesCommandSequence := by
  intro s is hwf hs
  induction is generalizing s with
  | nil =>
    have hnone : hostDoes [] s = s := by rw [hostDoes, List.append_nil]
    exact congrArg Host.Outcome.next hnone
  | cons i is ih =>
    obtain ⟨hwfi, hwfis⟩ := List.forall_mem_cons.mp hwf
    obtain ⟨t, hx⟩ := exec_next i s
    have ⟨_, _, hin⟩ := hs
    have hfirst : runSteps (encode i).length (hostDoes (bytesIn (encode i)) s) = .next t :=
      (runSteps_hostDoes_encode hwfi hs).trans hx
    rw [List.flatMap_cons, List.length_append, deliveryInPieces s _ _ hin, hfirst, execAll_cons_of_next is hx]
    exact ih t hwfis (portIdle_of_exec hs hx)

/-- The bytes `q` of a packet they leave incomplete join `PKT` one by one and do nothing else (R20, R113). -/
theorem runSteps_of_incomplete {i : Instr} (hwf : i.WellFormed) (more : List HostEvent) {q r : List Byte}
    (hr : r ≠ []) {s : State} (hh : s.halt = false) (hin : s.input = bytesIn q ++ more)
    (he : encode i = s.pkt ++ q ++ r) : runSteps q.length s = .next { s with input := more, pkt := s.pkt ++ q } := by
  induction q generalizing s with
  | nil =>
    obtain rfl : s.input = more := hin
    rw [List.append_nil]
    rfl
  | cons b q ih =>
    rw [List.append_cons] at he
    have hd : decode (s.pkt ++ [b]) = .incomplete :=
      prefixesAreIncomplete i _ (q ++ r) hwf (he.trans (List.append_assoc _ q r))
        (List.append_ne_nil_of_right_ne_nil q hr)
    rw [List.length_cons, runSteps_succ_of_next _ (step_of_incomplete hh hin hd), List.append_cons s.pkt b q]
    exact ih (s := { s with input := bytesIn q ++ more, pkt := s.pkt ++ [b] }) hh rfl he

/-- Settles O12: a run over the prefix, a step with nothing to take, and a run over the rest of the packet. -/
theorem incompletePacketWaits : Obligations.IncompletePacketWaits := by
  intro s i q r hwf ⟨hh, hp, hin⟩ he hq hr
  refine ⟨?_, ?_, ?_⟩
  · have he' : encode i = s.pkt ++ q ++ r := by rw [hp, List.nil_append, he]
    have hpkt : { s with pkt := s.pkt ++ q } = { s with pkt := q } := by rw [hp, List.nil_append]
    rw [runSteps_of_incomplete hwf [] hr (s := hostDoes (bytesIn q) s) hh (hostDoes_bytesIn_input hin q) he', ← hpkt,
      ← hin]
    rfl
  · have hwait : waitFault { s with pkt := q } = .incompletePacket := by simp [waitFault, hh, hq]
    rw [step_nil { s with pkt := q } hin, hwait]
  · rw [runSteps_hostDoes_rest (s := { s with pkt := q }) hwf hh hin he hr, ← hp]

/-! ### When a step stops (R103, R113, R116) -/

/-- Settles O16: of all a step can do only waiting stops, and a command on a complete packet finishes (R116). -/
theorem stepStopsOnlyWaiting : Obligations.StepStopsOnlyWaiting := by
  intro s
  refine ⟨fun hin => ?_, step_nil s⟩
  rcases step_cases s with ⟨hnil, _⟩ | ⟨_, _, hx⟩ | ⟨_, _, _, _, hx⟩ | ⟨_, _, _, _, _, hx⟩ | ⟨_, _, _, _, _, _, hx⟩ |
    ⟨_, _, i, _, _, _, _, hx⟩
  · exact absurd hnil hin
  · exact ⟨_, hx⟩
  · exact ⟨_, hx⟩
  · exact ⟨_, hx⟩
  · exact ⟨_, hx⟩
  · obtain ⟨t, ht⟩ := exec_next i _
    exact ⟨t, hx.trans ht⟩

/-! ### Responses are never read (R115) -/

/-- Settles O17: with an event to take a step commutes with earlier output, and without one it only names a fault. -/
theorem responsesAreNeverRead : Obligations.ResponsesAreNeverRead := by
  intro s o
  have hbefore : (fun t : State => { t with output := o ++ t.output }) = withPort o [] := by
    funext t
    rw [withPort, List.append_nil]
  have hstate : { s with output := o } = withPort o [] { s with output := [] } := by
    rw [withPort, List.append_nil, List.append_nil]
  rw [hbefore]
  by_cases hin : s.input = []
  · rw [step_nil { s with output := o } hin, step_nil { s with output := [] } hin]
    rfl
  · rw [hstate]
    exact step_withPort o [] hin

/-! ### Reset at any time (R110) -/

/-- Settles O19: the step that takes a reset is `resetBlock`, whatever `HALT` and `PKT` hold. -/
theorem resetAtAnyTime : Obligations.ResetAtAnyTime := fun s more hin =>
  ⟨_, step_reset s more hin, rfl, rfl, rfl, rfl, rfl, rfl, rfl, rfl, rfl, rfl, rfl, rfl, rfl, rfl⟩

end Sys2Proof.Machine
end
